-- ==== Sys2Proof/Word.lean ====
section
/-! DEFINITION. The byte, the request a host sends, and the numeric literals the codec depends on. -/

namespace Sys2Proof

/-- A byte: an 8-bit octet with no inherent semantics (spec/00_scope.md R7). -/
abbrev Byte := BitVec 8

/-- The delimiter, the implicit zero and the placeholder of a code slot (R5). -/
abbrev zeroByte : Byte := 0x00#8

/-- The counter limit and the code of a full block (R5). -/
abbrev fullCode : Byte := 0xFF#8

/-- The number of literal bytes of a full block (R5). -/
abbrev fullLiterals : Nat := 254

/-- One request, the only format `REQ` (spec/30_encoding.md R60): the 32-bit command word and the two operand
fields, each `LEN_W` bits wide and unsigned, held zero-extended as natural numbers. -/
structure Request where
  /-- `CMD` (R22, R60). -/
  cmd : BitVec 32
  /-- `FROM` (R24). -/
  fromOff : Nat
  /-- `IN_END` (R23). -/
  inEnd : Nat
deriving DecidableEq, Repr

end Sys2Proof
end

