-- ==== Sys2Proof/Syntax.lean ====
section
/-! DEFINITION. The five operations, one constructor per row of spec/opcode_table.json. -/

namespace Sys2Proof

/-- An operation with its two operands, `MNEMONIC FROM, IN_END` (spec/30_encoding.md R61, R64). -/
inductive Instr where
  /-- ENCODE (spec/40_encode.md R104). -/
  | encode (fromOff inEnd : Nat)
  /-- DECODE (spec/41_decode.md R135). -/
  | decode (fromOff inEnd : Nat)
  /-- FIND_FRAME (spec/42_frame.md R150). -/
  | findFrame (fromOff inEnd : Nat)
  /-- ENC_SIZE (spec/40_encode.md R105). -/
  | encSize (fromOff inEnd : Nat)
  /-- ENC_BOUND (spec/40_encode.md R106). -/
  | encBound (fromOff inEnd : Nat)
deriving DecidableEq, Repr

/-- The operand `FROM`, which every operation has (R24). -/
def Instr.fromOff : Instr → Nat
  | .encode f _ => f
  | .decode f _ => f
  | .findFrame f _ => f
  | .encSize f _ => f
  | .encBound f _ => f

/-- The operand `IN_END`, which every operation has (R23). -/
def Instr.inEnd : Instr → Nat
  | .encode _ e => e
  | .decode _ e => e
  | .findFrame _ e => e
  | .encSize _ e => e
  | .encBound _ e => e

end Sys2Proof
end

