-- ==== Sys2Proof/Config.lean ====
section
/-! DEFINITION. The implementation parameters (spec/00_scope.md section 4) and the free values. -/

namespace Sys2Proof

/-- The three parameters of a block, fixed when it is built (spec/70_reset_and_hazards.md R193). They are left open by
the spec (R6); State holds them, so that a statement about every state is a statement about every configuration
(notes/assumptions/1.md). -/
structure Params where
  /-- `N_MAX`: the size of IN in bytes. -/
  nMax : Nat
  /-- `OUT_CAP`: the capacity of OUT in bytes. -/
  outCap : Nat
  /-- `LEN_W`: the width in bits of the length and offset registers. -/
  lenW : Nat
deriving DecidableEq, Repr

/-- The constraint of R6: every length the block computes fits a `LEN_W`-bit register. -/
def Params.ok (p : Params) : Bool :=
  decide (p.nMax + 2 + p.nMax / fullLiterals < 2 ^ p.lenW)

/-- The parameters of the spec's own listings ("Unless a program says otherwise", spec/95_test_vectors.md section 3).
DESIGN CHOICE, unsafe for a claim about this one configuration only: the spec leaves the parameters open
(notes/assumptions/1.md). -/
def Params.listing : Params := { nMax := 64, outCap := 64, lenW := 16 }

/-- A free value: the byte that the `k`-th draw of an unspecified byte gives (spec/20_memory.md R45). It has no body, so
nothing can be proved about what it is (notes/assumptions/9.md). -/
opaque Config.freeByte : Nat → Byte

end Sys2Proof
end

