-- ==== Sys2Proof/WellFormed.lean ====
section
/-! DEFINITION. When a request and an operation are well formed: each operand fits its `LEN_W`-bit field. -/

namespace Sys2Proof

/-- Both operands of a request fit their `LEN_W`-bit fields (spec/30_encoding.md R60). Every 32-bit `CMD` can be
supplied (spec/10_state.md R22), so nothing is asked of it. -/
def Request.fits (p : Params) (r : Request) : Bool :=
  decide (r.fromOff < 2 ^ p.lenW) && decide (r.inEnd < 2 ^ p.lenW)

/-- An operation is well formed for parameters `p` when both operands fit their `LEN_W`-bit fields (R60). -/
def Instr.wellFormed (p : Params) (i : Instr) : Bool :=
  decide (i.fromOff < 2 ^ p.lenW) && decide (i.inEnd < 2 ^ p.lenW)

end Sys2Proof
end

