-- ==== Sys2Proof/Decode.lean ====
section
/-! DEFINITION. The command word's decoder and encoder (spec/30_encoding.md section 1). -/

namespace Sys2Proof

/-- Why a `CMD` selects no operation (R61, R62): both reasons finish with `ILLEGAL_OP` (spec/60_exceptions.md R170). -/
inductive DecodeReject where
  /-- `CMD[31:3]` is not zero. -/
  | reservedBits
  /-- `CMD[31:3]` is zero and `OP` is 5, 6 or 7. -/
  | reservedOp
deriving DecidableEq, Repr

/-- The field `OP = CMD[2:0]` (R60). -/
def opField (cmd : BitVec 32) : BitVec 3 := cmd.extractLsb' 0 3

/-- The reserved field `RSV = CMD[31:3]` (R60). -/
def rsvField (cmd : BitVec 32) : BitVec 29 := cmd.extractLsb' 3 29

/-- The operation a request selects, by the table of R61, or the reason it selects none. -/
def decodeRequest (r : Request) : Except DecodeReject Instr :=
  if rsvField r.cmd = 0#29 then
    match (opField r.cmd).toNat with
    | 0 => .ok (.encode r.fromOff r.inEnd)
    | 1 => .ok (.decode r.fromOff r.inEnd)
    | 2 => .ok (.findFrame r.fromOff r.inEnd)
    | 3 => .ok (.encSize r.fromOff r.inEnd)
    | 4 => .ok (.encBound r.fromOff r.inEnd)
    | _ => .error .reservedOp
  else .error .reservedBits

/-- The `CMD` of an operation (the table of R61). -/
def cmdOf : Instr → BitVec 32
  | .encode _ _ => 0x00000000#32
  | .decode _ _ => 0x00000001#32
  | .findFrame _ _ => 0x00000002#32
  | .encSize _ _ => 0x00000003#32
  | .encBound _ _ => 0x00000004#32

/-- The words of an operation: its `CMD` and its two operand fields (R60, R63). -/
def encodeRequest (i : Instr) : Request :=
  { cmd := cmdOf i, fromOff := i.fromOff, inEnd := i.inEnd }

/-- A request whose `CMD` is the number `w` cut to `nbits` bits and whose operand fields are zero: the opcode table
gives a row the 32 bits of `CMD` and no bits of the operands (spec/opcode_table.json; notes/assumptions/15.md). -/
def tableRequest (nbits w : Nat) : Request :=
  { cmd := BitVec.ofNat 32 (w % 2 ^ nbits), fromOff := 0, inEnd := 0 }

/-- What `decodeRequest` reads from a row of the opcode table. -/
def decodeTableWord (nbits w : Nat) : Option Instr :=
  match decodeRequest (tableRequest nbits w) with
  | .ok i => some i
  | .error _ => none

end Sys2Proof
end

