-- ==== Sys2Proof/Machine/Cobs.lean ====
section
/-! DEFINITION. The pure functions of the codec: cobs_encode, enc_size, ENC_BOUND's formula, cobs_decode and the search
for the delimiter (spec/40_encode.md, spec/41_decode.md, spec/42_frame.md). -/

namespace Sys2Proof.Machine

/-- The encoder's working registers (spec/40_encode.md R100, spec/10_state.md R34): they exist only while it runs. -/
structure EncState where
  /-- `y`: the output under construction. -/
  y : List Byte
  /-- `code_idx`: the index in `y` of the saved code slot. -/
  codeIdx : Nat
  /-- `c`: the 8-bit block-length counter. -/
  c : Byte
deriving DecidableEq, Repr

/-- The encoder before the first input byte: the first code slot reserved, the counter at 1 (R100). -/
def encStart : EncState := { y := [zeroByte], codeIdx := 0, c := 1#8 }

/-- R100's first test: copy a non-zero byte and count it. -/
def encCopy (e : EncState) (b : Byte) : EncState :=
  if b ≠ zeroByte then { e with y := e.y ++ [b], c := e.c + 1#8 } else e

/-- R100's "block ends": write the counter into the saved slot, reset it, save a new slot. -/
def encClose (e : EncState) : EncState :=
  { y := e.y.set e.codeIdx e.c ++ [zeroByte], codeIdx := e.y.length, c := 1#8 }

/-- One iteration of R100's loop: the second test sees the counter the first has updated. -/
def encStep (e : EncState) (b : Byte) : EncState :=
  let e1 := encCopy e b
  if b = zeroByte ∨ e1.c = fullCode then encClose e1 else e1

/-- The end of R100: the final counter value and one terminating zero byte. -/
def encFinish (e : EncState) : List Byte := e.y.set e.codeIdx e.c ++ [zeroByte]

/-- `cobs_encode(x)` (R100). -/
def cobsEncode (x : List Byte) : List Byte := encFinish (x.foldl encStep encStart)

/-- The zero-free segments of `x`, split at its zero bytes: one more than `x` has zero bytes (R102). -/
def segments : List Byte → List (List Byte)
  | [] => [[]]
  | b :: bs =>
    if b = zeroByte then [] :: segments bs
    else
      match segments bs with
      | [] => [[b]]
      | s :: ss => (b :: s) :: ss

/-- `enc_size(x)` (R102). -/
def encSize (x : List Byte) : Nat :=
  x.length + 2 + ((segments x).map fun s => s.length / fullLiterals).sum

/-- ENC_BOUND's number for `n` input bytes (R106, which corrects the source's section 9 expression:
spec/90_conflicts.md C1). -/
def encBound (n : Nat) : Nat := n + 2 + n / fullLiterals

/-- What `cobs_decode` returns (spec/41_decode.md R130). -/
structure Decoded where
  /-- The decoded bytes. -/
  y : List Byte
  /-- Decoding stopped on reading a zero byte. -/
  term : Bool
  /-- Decoding stopped inside a block. -/
  short : Bool
  /-- How many bytes were read. -/
  used : Nat
deriving DecidableEq, Repr

/-- R130 from the middle: `prev` is the code of the block being read (of the last block read, at a code position),
`left` how many of its literals are still to copy (`code - 1 - k` of the pseudocode), so `left = 0` is a code position.
Each call reads one byte. -/
def decodeFrom (prev : Byte) (left : Nat) : List Byte → Decoded
  | [] => { y := [], term := false, short := decide (left ≠ 0), used := 0 }
  | b :: bs =>
    if left = 0 then
      if b = zeroByte then { y := [], term := true, short := false, used := 1 }
      else
        let d := decodeFrom b (b.toNat - 1) bs
        { d with y := if prev ≠ fullCode then zeroByte :: d.y else d.y, used := d.used + 1 }
    else if b = zeroByte then { y := [], term := true, short := true, used := 1 }
    else
      let d := decodeFrom prev (left - 1) bs
      { d with y := b :: d.y, used := d.used + 1 }

/-- `cobs_decode(x)`: `prev` is 0xFF before the first block (R130). -/
def cobsDecode (x : List Byte) : Decoded := decodeFrom fullCode 0 x

/-- The index of the first zero byte, FIND_FRAME's loop (spec/42_frame.md R150). -/
def firstZero : List Byte → Option Nat
  | [] => none
  | b :: bs => if b = zeroByte then some 0 else (firstZero bs).map (· + 1)

end Sys2Proof.Machine
end

