-- ==== Sys2Proof/Machine/State.lean ====
section
/-! DEFINITION. The state of the block and of the host that drives it, the ways a step can stop, and reset. -/

namespace Sys2Proof.Machine

/-- The content of a byte-addressed buffer: the bytes written since reset, by strictly rising address. An address that
is not listed holds an unspecified byte (spec/20_memory.md R45). -/
abbrev Mem := List Host.Cell

/-- The canonical form of a `Mem`: addresses strictly rising. No byte equals what an unlisted address reads as, since
an unlisted address reads as no byte at all. -/
abbrev Mem.Wf (m : Mem) : Prop := (m.map Prod.fst).Pairwise (· < ·)

/-- The status codes of spec/60_exceptions.md R171. -/
inductive Status where
  | ok
  | notFound
  | capacityExceeded
  | inputTooLong
  | badOffset
  | illegalOp
deriving DecidableEq, Repr

/-- The value `STATUS` holds for a status (the Code column of R171). -/
def Status.code : Status → BitVec 8
  | .ok => 0x00#8
  | .notFound => 0x01#8
  | .capacityExceeded => 0x02#8
  | .inputTooLong => 0x03#8
  | .badOffset => 0x04#8
  | .illegalOp => 0x05#8

/-- The seven result registers (spec/10_state.md R25 to R31). The `LEN_W`-bit ones are natural numbers, which every
step keeps below `2 ^ LEN_W` (notes/assumptions/2.md). -/
structure Results where
  /-- `STATUS` (R25). -/
  status : BitVec 8
  /-- `FLAGS` (R26). -/
  flags : BitVec 8
  /-- `OUT_LEN` (R27). -/
  outLen : Nat
  /-- `CONSUMED` (R28). -/
  consumed : Nat
  /-- `START` (R29). -/
  start : Nat
  /-- `END` (R30). -/
  endAt : Nat
  /-- `SIZE` (R31). -/
  size : Nat
deriving DecidableEq, Repr

/-- Status `st` in `STATUS` and 0 in every other result register (R32). -/
def Results.only (st : Status) : Results :=
  { status := st.code, flags := 0x00#8, outLen := 0, consumed := 0, start := 0, endAt := 0, size := 0 }

/-- The name of a result register, as the host reads or writes it (R32). -/
inductive ResultReg where
  | status
  | flags
  | outLen
  | consumed
  | start
  | endAt
  | size
deriving DecidableEq, Repr

/-- One move of the host (the interactions of spec/60_exceptions.md R183, the listings' actions of
spec/30_encoding.md R64). -/
inductive HostMove where
  /-- `IN[addr..] := bytes`. -/
  | writeIn (addr : Nat) (bytes : List Byte)
  /-- Issue a request. -/
  | issue (r : Request)
  /-- Let the block complete the outstanding request (notes/assumptions/5.md). -/
  | wait
  /-- Read a result register. -/
  | readReg (r : ResultReg)
  /-- Write a result register, which has no effect (R32). -/
  | writeReg (r : ResultReg) (v : Nat)
  /-- Read `OUT[addr..addr+len)`. -/
  | readOut (addr len : Nat)
  /-- Assert reset (spec/70_reset_and_hazards.md R190, R191). -/
  | reset
deriving DecidableEq, Repr

/-- What one read of the host gave back (the last column of R183). -/
inductive Reading where
  /-- The value of a result register. -/
  | reg (r : ResultReg) (v : Nat)
  /-- Bytes of OUT from an address on. -/
  | out (addr : Nat) (bytes : List Byte)
deriving DecidableEq, Repr

/-- Everything the spec gives the block, its parameters, and the host that drives it. -/
structure State where
  /-- `N_MAX`, `OUT_CAP`, `LEN_W` of this block (R6, R193): no step changes them. -/
  params : Params
  /-- The outstanding request: `CMD`, `FROM` and `IN_END`, latched when it was issued (R22, R47). -/
  request : Option Request
  /-- The result registers (R25 to R31). -/
  res : Results
  /-- IN: the bytes the host has written since reset (R40, R45). -/
  inp : Mem
  /-- OUT: the bytes the block has written since reset (R40, R42, R45). -/
  out : Mem
  /-- The model's own: the length of the last OK ENCODE or DECODE since reset, below which a host read of OUT gives a
  defined byte (R183; notes/assumptions/10.md). -/
  outDefined : Nat
  /-- The model's own: the host's further moves (notes/assumptions/5.md). -/
  host : List HostMove
  /-- The model's own: what the host's reads gave back, oldest first (notes/assumptions/16.md). -/
  seen : List Reading
  /-- The model's own: how many free bytes were drawn (notes/assumptions/9.md). -/
  drawn : Nat
deriving DecidableEq, Repr

/-- Why the machine stops. -/
inductive Fault where
  /-- `UNINIT_READ` (R45, R182): raised by ENCODE, ENC_SIZE, DECODE and FIND_FRAME when they read an IN byte the host has
  not written since reset. Safe: the chip goes on with some unspecified byte. -/
  | uninitRead
  /-- Raised by the host's `writeIn` and `readOut` when they touch an address outside IN or OUT (R40, R51). Safe: the
  spec gives no such address (notes/assumptions/12.md). -/
  | noSuchAddress
deriving DecidableEq, Repr

/-- What the model gives no meaning to. -/
inductive Refusal where
  /-- Raised by an arm of `exec` whose instruction has no meaning yet. Safe. -/
  | notModelled (mnemonic : String)
  /-- Raised by every step and every operation of a block whose parameters break the constraint of R6 (R182). Safe. -/
  | badConfiguration
  /-- Raised by a host move that has no move while a request is outstanding (R47, R182, R194). Safe. -/
  | noMove
  /-- Raised by the host's `issue` of an operand that does not fit its `LEN_W`-bit field (R60). Safe: no host can send it
  (notes/assumptions/14.md). -/
  | operandTooWide
deriving DecidableEq, Repr

/-- The state after reset of a block built with parameters `p`, whose host makes no move
(spec/70_reset_and_hazards.md R190). -/
def State.resetWith (p : Params) : State :=
  { params := p
    request := none
    res := Results.only .ok
    inp := []
    out := []
    outDefined := 0
    host := []
    seen := []
    drawn := 0 }

/-- The state after reset of the block of the spec's listings (notes/assumptions/1.md). -/
def State.reset : State := State.resetWith Params.listing

end Sys2Proof.Machine
end

