-- ==== Sys2Proof/Machine/Flags.lean ====
section
/-! DEFINITION. The `FLAGS` register (spec/10_state.md R26, spec/41_decode.md R131). -/

namespace Sys2Proof.Machine

/-- `TERM`, bit 0 (R26). -/
def flagTerm (flags : BitVec 8) : Bool := flags.getLsbD 0

/-- `SHORT`, bit 1 (R26). -/
def flagShort (flags : BitVec 8) : Bool := flags.getLsbD 1

/-- The reserved bits 7:2 (R26). -/
def flagReserved (flags : BitVec 8) : BitVec 6 := flags.extractLsb' 2 6

/-- `zext_8(short << 1 | term)` (spec/41_decode.md R135). -/
def decodeFlags (term short : Bool) : BitVec 8 :=
  ((BitVec.ofBool short).zeroExtend 8 <<< 1) ||| (BitVec.ofBool term).zeroExtend 8

end Sys2Proof.Machine
end

