-- ==== Sys2Proof/Machine/Ops.lean ====
section
/-! DEFINITION. The named operations over the memories and the registers: MemRead, MemWrite, `finish`, the commit to OUT,
what the host reads, and reset. The block has no traps (spec/60_exceptions.md R172): `finish` is its only form of raise
(spec/00_scope.md R12), so no exception is taken and none is returned from. -/

namespace Sys2Proof.Machine

/-- `MemRead(m, x, 1)` (R11): the byte written at `x` since reset, if any (spec/20_memory.md R45). -/
def Mem.read : Mem → Nat → Option Byte
  | [], _ => none
  | (a, b) :: m, x => if a = x then some b else Mem.read m x

/-- `MemWrite(m, x, 1, v)` (R11), keeping the addresses strictly rising. -/
def Mem.write : Mem → Nat → Byte → Mem
  | [], x, v => [(x, v)]
  | (a, b) :: m, x, v =>
    if x < a then (x, v) :: (a, b) :: m
    else if x = a then (x, v) :: m
    else (a, b) :: Mem.write m x v

/-- Bytes written at successive addresses from `x` on, in increasing address order (R43). -/
def Mem.writeBytes : Mem → Nat → List Byte → Mem
  | m, _, [] => m
  | m, x, b :: bs => Mem.writeBytes (m.write x b) (x + 1) bs

/-- The bytes of `m[x..x+n)` in increasing address order, up to the first one that was not written since reset. -/
def Mem.readable (m : Mem) (x : Nat) : Nat → List Byte
  | 0 => []
  | n + 1 =>
    match m.read x with
    | some b => b :: m.readable (x + 1) n
    | none => []

/-- The value of a result register as the host reads it, zero-extended. -/
def Results.get (r : Results) : ResultReg → Nat
  | .status => r.status.toNat
  | .flags => r.flags.toNat
  | .outLen => r.outLen
  | .consumed => r.consumed
  | .start => r.start
  | .endAt => r.endAt
  | .size => r.size

/-- `finish` (spec/00_scope.md R12): all seven result registers are written and the request is complete (R32, R47). -/
def State.finish (s : State) (r : Results) : State := { s with res := r, request := none }

/-- `finish st` with 0 in every other result register: every status but OK (R171, R172). -/
def State.finishOnly (s : State) (st : Status) : State := s.finish (Results.only st)

/-- `for j in 0..|y|-1: MemWrite(OUT, j, 1, y[j])` (spec/40_encode.md R104, spec/41_decode.md R135). -/
def State.commitOut (s : State) (y : List Byte) : State :=
  { s with out := s.out.writeBytes 0 y, outDefined := y.length }

/-- The byte a host read of `OUT[a]` gives: the byte the block wrote, below the length of the last OK ENCODE or DECODE;
anywhere else an unspecified one, the free byte `k` (R45, R183; notes/assumptions/10.md). -/
def State.outByte (s : State) (a k : Nat) : Byte :=
  if a < s.outDefined then (s.out.read a).getD (Config.freeByte k) else Config.freeByte k

/-- The bytes a host read of `OUT[a..a+len)` gives. Each byte read has a free byte of its own to draw. -/
def State.outBytes (s : State) (a len : Nat) : List Byte :=
  (List.range len).map fun j => s.outByte (a + j) (s.drawn + j)

/-- Reset (spec/70_reset_and_hazards.md R190, R191): the result registers 0, no request outstanding, IN and OUT
unspecified. The host goes on, and what it has seen stays seen. -/
def State.afterReset (s : State) : State :=
  { State.resetWith s.params with host := s.host, seen := s.seen, drawn := s.drawn }

/-- A request the host has placed, which the next step serves: the host makes no move before it. -/
def State.withRequest (s : State) (r : Request) : State := { s with request := some r, host := [] }

end Sys2Proof.Machine
end

