-- ==== Sys2Proof/Machine/Operands.lean ====
section
/-! DEFINITION. The operands of every operation: the common checks over `FROM` and `IN_END` and the window they select. -/

namespace Sys2Proof.Machine

/-- The common checks on the operands, in order (spec/60_exceptions.md R170; the first one, on `CMD`, is the decoder's).
`none` when both pass. -/
def operandCheck (p : Params) (fromOff inEnd : Nat) : Option Status :=
  if inEnd > p.nMax then some .inputTooLong
  else if fromOff > inEnd then some .badOffset
  else none

/-- How a request ends before its operation starts: with a refused configuration (R6, R182), or with the status of a
failed common check and nothing else (R170, R171). `none` when the operation starts. -/
def earlyEnd (s : State) (fromOff inEnd : Nat) : Option (Host.Outcome State Fault Refusal) :=
  if s.params.ok then (operandCheck s.params fromOff inEnd).map fun st => .next (s.finishOnly st)
  else some (.refused .badConfiguration)

/-- The number of bytes of the window `IN[FROM..IN_END)` (R11, R23). -/
def windowLen (fromOff inEnd : Nat) : Nat := inEnd - fromOff

/-- The window's bytes in increasing address order, up to the first one the host has not written since reset (R41, R45). -/
def State.window (s : State) (fromOff inEnd : Nat) : List Byte :=
  s.inp.readable fromOff (windowLen fromOff inEnd)

/-- Every byte of the window was written since reset, so an operation may read all of it (R45). -/
def windowWritten (x : List Byte) (fromOff inEnd : Nat) : Bool :=
  decide (x.length = windowLen fromOff inEnd)

end Sys2Proof.Machine
end

