-- ==== Sys2Proof/Machine/Decoder.lean ====
section
/-! DEFINITION. The decoder family: DECODE (spec/41_decode.md). -/

namespace Sys2Proof.Machine

/-- DECODE (R135). It reads the window in increasing address order and no byte after the one that stops it (R41, R132):
where decoding the written bytes has not stopped and the window goes on, the next byte it reads is one the host has not
written since reset (notes/assumptions/8.md). -/
def execDecode (fromOff inEnd : Nat) (s : State) : Host.Outcome State Fault Refusal :=
  match earlyEnd s fromOff inEnd with
  | some o => o
  | none =>
    let x := s.window fromOff inEnd
    let d := cobsDecode x
    if d.term || windowWritten x fromOff inEnd then
      if d.y.length > s.params.outCap then .next (s.finishOnly .capacityExceeded)
      else
        .next ((s.commitOut d.y).finish
          { Results.only .ok with outLen := d.y.length, consumed := d.used, flags := decodeFlags d.term d.short })
    else .fault .uninitRead

end Sys2Proof.Machine
end

