-- ==== Sys2Proof/Machine/Encoder.lean ====
section
/-! DEFINITION. The encoder family: ENCODE, ENC_SIZE, ENC_BOUND (spec/40_encode.md). -/

namespace Sys2Proof.Machine

/-- ENCODE (R104). It reads every byte of the window (R41). -/
def execEncode (fromOff inEnd : Nat) (s : State) : Host.Outcome State Fault Refusal :=
  match earlyEnd s fromOff inEnd with
  | some o => o
  | none =>
    let x := s.window fromOff inEnd
    if windowWritten x fromOff inEnd then
      let y := cobsEncode x
      if y.length > s.params.outCap then .next (s.finishOnly .capacityExceeded)
      else .next ((s.commitOut y).finish { Results.only .ok with outLen := y.length })
    else .fault .uninitRead

/-- ENC_SIZE (R105). It reads every byte of the window (R41). -/
def execEncSize (fromOff inEnd : Nat) (s : State) : Host.Outcome State Fault Refusal :=
  match earlyEnd s fromOff inEnd with
  | some o => o
  | none =>
    let x := s.window fromOff inEnd
    if windowWritten x fromOff inEnd then .next (s.finish { Results.only .ok with size := encSize x })
    else .fault .uninitRead

/-- ENC_BOUND (R106). It reads no byte of IN (R41). -/
def execEncBound (fromOff inEnd : Nat) (s : State) : Host.Outcome State Fault Refusal :=
  match earlyEnd s fromOff inEnd with
  | some o => o
  | none => .next (s.finish { Results.only .ok with size := encBound (windowLen fromOff inEnd) })

end Sys2Proof.Machine
end

