-- ==== Sys2Proof/Machine/FrameFinder.lean ====
section
/-! DEFINITION. The frame-finder family: FIND_FRAME (spec/42_frame.md). -/

namespace Sys2Proof.Machine

/-- FIND_FRAME (R150). It reads from `FROM` upward and stops at the first zero byte (R41, R152): where no written byte is
zero and the window goes on, the next byte it reads is one the host has not written since reset (notes/assumptions/8.md). -/
def execFindFrame (fromOff inEnd : Nat) (s : State) : Host.Outcome State Fault Refusal :=
  match earlyEnd s fromOff inEnd with
  | some o => o
  | none =>
    let x := s.window fromOff inEnd
    match firstZero x with
    | some k => .next (s.finish { Results.only .ok with start := fromOff, endAt := fromOff + k + 1 })
    | none =>
      if windowWritten x fromOff inEnd then .next (s.finishOnly .notFound) else .fault .uninitRead

end Sys2Proof.Machine
end

