-- ==== Sys2Proof/Machine/Dispatch.lean ====
section
/-! DEFINITION. One arm per operation. -/

namespace Sys2Proof.Machine

def exec (i : Instr) (s : State) : Host.Outcome State Fault Refusal :=
  match i with
  | .encode f e => Sys2Proof.Machine.execEncode f e s
  | .decode f e => Sys2Proof.Machine.execDecode f e s
  | .findFrame f e => Sys2Proof.Machine.execFindFrame f e s
  | .encSize f e => Sys2Proof.Machine.execEncSize f e s
  | .encBound f e => Sys2Proof.Machine.execEncBound f e s

end Sys2Proof.Machine
end

