-- ==== Sys2Proof/Machine/Serve.lean ====
section
/-! DEFINITION. The block's move: serve the outstanding request as one atomic transaction (spec/20_memory.md R47). -/

namespace Sys2Proof.Machine

/-- A `CMD` that selects no operation: nothing is performed and the request finishes with `ILLEGAL_OP`
(spec/30_encoding.md R62, spec/60_exceptions.md R170). -/
def serveIllegal (s : State) : Host.Outcome State Fault Refusal := .next (s.finishOnly .illegalOp)

/-- The block completes the outstanding request in one step (R47); where none is outstanding it does nothing
(notes/assumptions/6.md). -/
def serve (s : State) : Host.Outcome State Fault Refusal :=
  match s.request with
  | none => .next s
  | some r =>
    match decodeRequest r with
    | .ok i => exec i s
    | .error _ => serveIllegal s

end Sys2Proof.Machine
end

