-- ==== Sys2Proof/Machine/HostPort.lean ====
section
/-! DEFINITION. The host's moves (spec/60_exceptions.md R183) and whose move it is. -/

namespace Sys2Proof.Machine

/-- `len` bytes from `addr` on lie inside a buffer of `cap` bytes at addresses `0..cap-1` (R40). -/
def spanInside (addr len cap : Nat) : Bool := decide (len = 0) || decide (addr + len ≤ cap)

/-- The host writes IN, but not while a request is outstanding (R183, R194). -/
def hostWriteIn (addr : Nat) (bytes : List Byte) (s : State) : Host.Outcome State Fault Refusal :=
  if s.request.isSome then .refused .noMove
  else if spanInside addr bytes.length s.params.nMax then .next { s with inp := s.inp.writeBytes addr bytes }
  else .fault .noSuchAddress

/-- The host issues a request, which the block latches (R22), but not while another is outstanding (R183, R194). -/
def hostIssue (r : Request) (s : State) : Host.Outcome State Fault Refusal :=
  if s.request.isSome then .refused .noMove
  else if r.fits s.params then .next { s with request := some r }
  else .refused .operandTooWide

/-- The host reads a result register, between two requests only (R32, R47). -/
def hostReadReg (r : ResultReg) (s : State) : Host.Outcome State Fault Refusal :=
  if s.request.isSome then .refused .noMove
  else .next { s with seen := s.seen ++ [.reg r (s.res.get r)] }

/-- A host write to a result register has no effect (R32). -/
def hostWriteReg (_r : ResultReg) (_v : Nat) (s : State) : Host.Outcome State Fault Refusal := .next s

/-- The host reads bytes of OUT, between two requests only (R42, R45, R47). -/
def hostReadOut (addr len : Nat) (s : State) : Host.Outcome State Fault Refusal :=
  if s.request.isSome then .refused .noMove
  else if spanInside addr len s.params.outCap then
    .next { s with seen := s.seen ++ [.out addr (s.outBytes addr len)], drawn := s.drawn + len }
  else .fault .noSuchAddress

/-- Reset, between requests (R190) or during one (R191). -/
def hostReset (s : State) : Host.Outcome State Fault Refusal := .next s.afterReset

/-- One move of the host. `wait` is the block's move: the outstanding request, if there is one, completes. -/
def hostAct (m : HostMove) (s : State) : Host.Outcome State Fault Refusal :=
  match m with
  | .writeIn addr bytes => hostWriteIn addr bytes s
  | .issue r => hostIssue r s
  | .wait => serve s
  | .readReg r => hostReadReg r s
  | .writeReg r v => hostWriteReg r v s
  | .readOut addr len => hostReadOut addr len s
  | .reset => hostReset s

/-- Whose move it is (notes/assumptions/5.md): the host's next one, while it has any; else the block serves. -/
def nextMove (s : State) : Host.Outcome State Fault Refusal :=
  match s.host with
  | [] => serve s
  | m :: ms => hostAct m { s with host := ms }

/-- One move of the whole system. A configuration that breaks the constraint of R6 is refused (R182). -/
def cycle (s : State) : Host.Outcome State Fault Refusal :=
  if s.params.ok then nextMove s else .refused .badConfiguration

end Sys2Proof.Machine
end

