-- ==== Sys2Proof/Machine/Step.lean ====
section
/-! DEFINITION. One step of the machine, and where the next instruction is placed for it. -/

namespace Sys2Proof.Machine

/-- One step (spec/20_memory.md R47: a request is one). -/
def step (s : State) : Host.Outcome State Fault Refusal := cycle s

/-- The block fetches nothing (spec/10_state.md R21): its next instruction is the outstanding request. -/
def State.withFetchWord (s : State) (nbits w : Nat) : State := s.withRequest (tableRequest nbits w)

end Sys2Proof.Machine
end

