-- ==== Sys2Proof/Machine/Listing.lean ====
section
/-! DEFINITION. The written form of requests and of host actions (spec/30_encoding.md R64), as lists of characters. -/

namespace Sys2Proof.Machine

/-- The digit of a base that a character writes, a letter in either case (R64; notes/assumptions/18.md). -/
def digitValue (base : Nat) (c : Char) : Option Nat :=
  (List.range base).find? fun d => c ∈ [Nat.digitChar d, (Nat.digitChar d).toUpper]

/-- The number that digits in a base continue `acc` to. -/
def digitsFrom (base acc : Nat) : List Char → Option Nat
  | [] => some acc
  | c :: cs => (digitValue base c).bind fun d => digitsFrom base (acc * base + d) cs

/-- A decimal number, or a hexadecimal one with the prefix `0x` (R64). -/
def readNumber : List Char → Option Nat
  | [] => none
  | '0' :: 'x' :: [] => none
  | '0' :: 'x' :: cs => digitsFrom 16 0 cs
  | cs => digitsFrom 10 0 cs

/-- What stands before and after the first `c`. -/
def cutAt (c : Char) : List Char → Option (List Char × List Char)
  | [] => none
  | d :: ds => if d = c then some ([], ds) else (cutAt c ds).map fun (a, b) => (d :: a, b)

/-- The mnemonic of an operation (R61, R64). -/
def mnemonicOf : Instr → List Char
  | .encode _ _ => ['E', 'N', 'C', 'O', 'D', 'E']
  | .decode _ _ => ['D', 'E', 'C', 'O', 'D', 'E']
  | .findFrame _ _ => ['F', 'I', 'N', 'D', '_', 'F', 'R', 'A', 'M', 'E']
  | .encSize _ _ => ['E', 'N', 'C', '_', 'S', 'I', 'Z', 'E']
  | .encBound _ _ => ['E', 'N', 'C', '_', 'B', 'O', 'U', 'N', 'D']

/-- The operation a mnemonic names, with its operands (R64: there are no pseudo-instructions). -/
def ofMnemonic (m : List Char) (f e : Nat) : Option Instr :=
  if m = mnemonicOf (.encode f e) then some (.encode f e)
  else if m = mnemonicOf (.decode f e) then some (.decode f e)
  else if m = mnemonicOf (.findFrame f e) then some (.findFrame f e)
  else if m = mnemonicOf (.encSize f e) then some (.encSize f e)
  else if m = mnemonicOf (.encBound f e) then some (.encBound f e)
  else none

/-- Read `MNEMONIC FROM, IN_END` (R64); one space stands after the mnemonic and one after the comma
(notes/assumptions/18.md). -/
def readInstr (cs : List Char) : Option Instr :=
  match cutAt ' ' cs with
  | none => none
  | some (m, rest) =>
    match cutAt ',' rest with
    | some (f, ' ' :: e) =>
      match readNumber f, readNumber e with
      | some f, some e => ofMnemonic m f e
      | _, _ => none
    | _ => none

/-- Write `MNEMONIC FROM, IN_END` with decimal operands (R64). -/
def writeInstr (i : Instr) : List Char :=
  mnemonicOf i ++ ' ' :: Nat.toDigits 10 i.fromOff ++ ',' :: ' ' :: Nat.toDigits 10 i.inEnd

/-- The name of a result register (spec/10_state.md section 3). -/
def regName : ResultReg → List Char
  | .status => ['S', 'T', 'A', 'T', 'U', 'S']
  | .flags => ['F', 'L', 'A', 'G', 'S']
  | .outLen => ['O', 'U', 'T', '_', 'L', 'E', 'N']
  | .consumed => ['C', 'O', 'N', 'S', 'U', 'M', 'E', 'D']
  | .start => ['S', 'T', 'A', 'R', 'T']
  | .endAt => ['E', 'N', 'D']
  | .size => ['S', 'I', 'Z', 'E']

/-- The result register of a name. -/
def ofRegName (cs : List Char) : Option ResultReg :=
  [ResultReg.status, .flags, .outLen, .consumed, .start, .endAt, .size].find? fun r => regName r = cs

/-- Bytes as two-digit hexadecimal numbers, one space between two of them (spec/95_test_vectors.md). -/
def readBytes : List Char → Option (List Byte)
  | [a, b] => (digitsFrom 16 0 [a, b]).map fun v => [BitVec.ofNat 8 v]
  | a :: b :: ' ' :: cs =>
    match digitsFrom 16 0 [a, b], readBytes cs with
    | some v, some bs => some (BitVec.ofNat 8 v :: bs)
    | _, _ => none
  | _ => none

/-- Read one line of a listing as the host's moves (R64). A line that is a request is issued and awaited. A request
whose `CMD` has no mnemonic has its operands in the listing's comment: they are the arguments `f` and `e`. -/
def readLine (f e : Nat) (cs : List Char) : Option (List HostMove) :=
  match cs with
  | 'I' :: 'N' :: '[' :: rest =>
    match cutAt '.' rest with
    | some (a, '.' :: ']' :: ' ' :: ':' :: '=' :: ' ' :: bs) =>
      match readNumber a, readBytes bs with
      | some a, some bs => some [.writeIn a bs]
      | _, _ => none
    | _ => none
  | 'r' :: 'e' :: 'a' :: 'd' :: ' ' :: 'O' :: 'U' :: 'T' :: '[' :: '0' :: '.' :: '.' :: rest =>
    match cutAt ')' rest with
    | some (k, []) => (readNumber k).map fun k => [.readOut 0 k]
    | _ => none
  | 'r' :: 'e' :: 'a' :: 'd' :: ' ' :: reg => (ofRegName reg).map fun r => [.readReg r]
  | '<' :: 'C' :: 'M' :: 'D' :: '=' :: '0' :: 'x' :: rest =>
    match cutAt '>' rest with
    | some (h, []) =>
      if h.length = 8 then
        (digitsFrom 16 0 h).map fun v => [.issue { cmd := BitVec.ofNat 32 v, fromOff := f, inEnd := e }, .wait]
      else none
    | _ => none
  | _ => (readInstr cs).map fun i => [.issue (encodeRequest i), .wait]

end Sys2Proof.Machine
end

