-- ==== Sys2Proof/Machine/Frame.lean ====
section
/-! DEFINITION. The COBS frame format (spec/30_encoding.md section 2): blocks, frames, what they decode to. -/

namespace Sys2Proof.Machine

/-- A block: one code byte and its literal bytes (R65). -/
structure Block where
  code : Byte
  lits : List Byte
deriving DecidableEq, Repr

/-- R67's conditions on a block: the code is not zero, it says how many literals follow, and no literal is zero. -/
def Block.ok (b : Block) : Bool :=
  decide (b.code ≠ zeroByte) && decide (b.lits.length = b.code.toNat - 1) && !b.lits.contains zeroByte

/-- A block as bytes: the code byte first, ahead of its literals (R65). -/
def Block.bytes (b : Block) : List Byte := b.code :: b.lits

/-- The bytes of a sequence of blocks. -/
def blocksBytes (bs : List Block) : List Byte := bs.flatMap Block.bytes

/-- A frame: its blocks and exactly one delimiter (R65). -/
def frameBytes (bs : List Block) : List Byte := blocksBytes bs ++ [zeroByte]

/-- What a sequence of blocks decodes to when the block before it had code `prev`: before each block the implicit zero
of the block before it, unless that one was full (R66). -/
def contentAfter (prev : Byte) : List Block → List Byte
  | [] => []
  | b :: bs => (if prev ≠ fullCode then [zeroByte] else []) ++ b.lits ++ contentAfter b.code bs

/-- What a sequence of blocks decodes to (R66): no implicit zero before the first block, none after the last. -/
def blocksContent (bs : List Block) : List Byte := contentAfter fullCode bs

/-- The code of the last block of a sequence, 0xFF where there is none. -/
def lastCode (bs : List Block) : Byte := (bs.getLast?.map Block.code).getD fullCode

/-- `f` is a well-formed frame of the blocks `bs` (R67). -/
def FrameOf (bs : List Block) (f : List Byte) : Prop :=
  bs ≠ [] ∧ (∀ b ∈ bs, b.ok = true) ∧ f = frameBytes bs

/-- `f` is a well-formed frame (R67). -/
def WellFormedFrame (f : List Byte) : Prop := ∃ bs, FrameOf bs f

/-- `f` is a canonical frame: a well-formed frame whose last block's code is not 0xFF (R68). -/
def CanonicalFrame (f : List Byte) : Prop := ∃ bs, FrameOf bs f ∧ lastCode bs ≠ fullCode

end Sys2Proof.Machine
end

