-- ==== Sys2Proof/Safety.lean ====
section
/-! DEFINITION. What the statements speak of: the host's duties, the window, and the invariant of the machine. -/

namespace Sys2Proof.Machine

/-- The operands pass the common checks of a block whose configuration is accepted (spec/60_exceptions.md R170, R6). -/
def State.Accepts (s : State) (fromOff inEnd : Nat) : Prop :=
  s.params.ok = true ∧ inEnd ≤ s.params.nMax ∧ fromOff ≤ inEnd

/-- Operation `i` begins with the common checks on its operands (spec/60_exceptions.md R170): `INPUT_TOO_LONG`, then
`BAD_OFFSET`, with nothing but the result registers written. -/
def State.RunsCommonChecks (s : State) (i : Instr) : Prop :=
  (s.params.nMax < i.inEnd → exec i s = .next { s with res := Results.only .inputTooLong, request := none }) ∧
  (i.inEnd ≤ s.params.nMax → i.inEnd < i.fromOff →
    exec i s = .next { s with res := Results.only .badOffset, request := none })

/-- `x` is the window `IN[FROM..IN_END)`: the host has written all of it (spec/00_scope.md R11; the duty of R183). -/
def State.HoldsWindow (s : State) (fromOff inEnd : Nat) (x : List Byte) : Prop :=
  x.length = inEnd - fromOff ∧ ∀ j, j < x.length → s.inp.read (fromOff + j) = x[j]?

/-- `x` stands in IN from address `a` on. -/
def State.InputAt (s : State) (a : Nat) (x : List Byte) : Prop :=
  ∀ j, j < x.length → s.inp.read (a + j) = x[j]?

/-- `OUT[0..|y|)` holds `y` and every other byte of OUT is as it was in `s` (spec/20_memory.md R42). -/
def State.OutIs (t s : State) (y : List Byte) : Prop :=
  (∀ j, j < y.length → t.out.read j = y[j]?) ∧ ∀ a, y.length ≤ a → t.out.read a = s.out.read a

/-- Everything an operation leaves alone whatever it does: the parameters, IN, the host's further moves, what the host
has seen and the free values. The result registers, OUT and the request are the operation's. -/
def State.SameOutside (t s : State) : Prop :=
  t.params = s.params ∧ t.inp = s.inp ∧ t.host = s.host ∧ t.seen = s.seen ∧ t.drawn = s.drawn

/-- Two answers report the same to the host: the same result registers and the same bytes of `OUT[0..OUT_LEN)`, or the
same reason to stop (spec/10_state.md R33). -/
def SameAnswer : Host.Outcome State Fault Refusal → Host.Outcome State Fault Refusal → Prop
  | .next t, .next t' => t.res = t'.res ∧ ∀ j, j < t.res.outLen → t.out.read j = t'.out.read j
  | .fault r, .fault r' => r = r'
  | .refused r, .refused r' => r = r'
  | _, _ => False

/-- The ranges a host gets that issues FIND_FRAME again and again, each time from the last frame's `END`
(spec/42_frame.md R154), at most `fuel` times. -/
def walkFrames (inEnd : Nat) : Nat → Nat → State → List (Nat × Nat)
  | 0, _, _ => []
  | fuel + 1, fromOff, s =>
    match exec (.findFrame fromOff inEnd) s with
    | .next t =>
      if t.res.status = Status.ok.code then (t.res.start, t.res.endAt) :: walkFrames inEnd fuel t.res.endAt t else []
    | _ => []

/-- The addresses one past each zero byte of `x` when `x` stands from address `a` on, in order. -/
def pastZeros (a : Nat) : List Byte → List Nat
  | [] => []
  | b :: bs => if b = zeroByte then (a + 1) :: pastZeros (a + 1) bs else pastZeros (a + 1) bs

/-- The result registers hold values the spec allows them (R25 to R31): a status code of R171, the reserved flag bits 0,
every length in `LEN_W` bits, a length of OUT within OUT. -/
def Results.Ok (p : Params) (r : Results) : Prop :=
  r.status.toNat ≤ 5 ∧ flagReserved r.flags = 0#6 ∧ r.outLen ≤ p.outCap ∧
  r.outLen < 2 ^ p.lenW ∧ r.consumed < 2 ^ p.lenW ∧ r.start < 2 ^ p.lenW ∧ r.endAt < 2 ^ p.lenW ∧ r.size < 2 ^ p.lenW

/-- A buffer in canonical form, with no byte at an address it does not have (R40). -/
def Mem.Fits (m : Mem) (cap : Nat) : Prop := m.Wf ∧ ∀ a, cap ≤ a → m.read a = none

/-- The invariant every step keeps. -/
structure State.Inv (s : State) : Prop where
  /-- The configuration is one the model accepts (R6). -/
  config : s.params.ok = true
  /-- The result registers hold values the spec allows. -/
  results : s.res.Ok s.params
  /-- An outstanding request's operands fit their fields (R60). -/
  request : ∀ r, s.request = some r → r.fits s.params = true
  /-- IN lies in `0..N_MAX-1` (R40). -/
  input : s.inp.Fits s.params.nMax
  /-- OUT lies in `0..OUT_CAP-1` (R40). -/
  output : s.out.Fits s.params.outCap
  /-- The bytes of the last OK ENCODE or DECODE are all there (R42). -/
  committed : ∀ a, a < s.outDefined → (s.out.read a).isSome = true

end Sys2Proof.Machine
end

