-- ==== Sys2Proof/Certificates/Slice0/Obligations.lean ====
section
/-! DEFINITION. The statements for the provers, from the numbered rules of spec/. -/

open Sys2Proof Sys2Proof.Machine

/-! ## The command word (spec/30_encoding.md) -/

/-- A few command words written out from the table of R61 and the example of R64. -/
def Obligations.TableWordsDecode : Prop :=
  decodeRequest { cmd := 0x00000002#32, fromOff := 3, inEnd := 6 } = .ok (.findFrame 3 6) ∧
  decodeRequest { cmd := 0x00000000#32, fromOff := 0, inEnd := 4 } = .ok (.encode 0 4) ∧
  decodeRequest { cmd := 0x00000001#32, fromOff := 8, inEnd := 14 } = .ok (.decode 8 14) ∧
  decodeRequest { cmd := 0x00000003#32, fromOff := 0, inEnd := 254 } = .ok (.encSize 0 254) ∧
  decodeRequest { cmd := 0x00000004#32, fromOff := 8, inEnd := 8 } = .ok (.encBound 8 8) ∧
  decodeRequest { cmd := 0x00000005#32, fromOff := 0, inEnd := 0 } = .error .reservedOp ∧
  decodeRequest { cmd := 0x00000007#32, fromOff := 5, inEnd := 65 } = .error .reservedOp ∧
  decodeRequest { cmd := 0x00000008#32, fromOff := 0, inEnd := 4 } = .error .reservedBits ∧
  decodeRequest { cmd := 0x80000001#32, fromOff := 0, inEnd := 4 } = .error .reservedBits

/-- R61: a `CMD` selects an operation exactly when `CMD[31:3] = 0` and `CMD[2:0]` is one of the five values, and the
match is on the whole word. -/
def Obligations.CmdSelectsByTheTable : Prop :=
  ∀ r : Request,
    (decodeRequest r = .ok (.encode r.fromOff r.inEnd) ↔ r.cmd = 0x00000000#32) ∧
    (decodeRequest r = .ok (.decode r.fromOff r.inEnd) ↔ r.cmd = 0x00000001#32) ∧
    (decodeRequest r = .ok (.findFrame r.fromOff r.inEnd) ↔ r.cmd = 0x00000002#32) ∧
    (decodeRequest r = .ok (.encSize r.fromOff r.inEnd) ↔ r.cmd = 0x00000003#32) ∧
    (decodeRequest r = .ok (.encBound r.fromOff r.inEnd) ↔ r.cmd = 0x00000004#32) ∧
    ((∃ i, decodeRequest r = .ok i) ↔ rsvField r.cmd = 0#29 ∧ (opField r.cmd).toNat < 5)

/-- R60, R61, R63: decoding the words of an operation gives the operation with all of both operands, the words are well
formed exactly when the operation is, and no other words decode to it. -/
def Obligations.DecodeEncodeAgree : Prop :=
  (∀ i : Instr, decodeRequest (encodeRequest i) = .ok i) ∧
  (∀ (p : Params) (i : Instr), (encodeRequest i).fits p = i.wellFormed p) ∧
  (∀ (r : Request) (i : Instr), decodeRequest r = .ok i → encodeRequest i = r)

/-- R64: reading the written form of an operation gives the operation. -/
def Obligations.ListingReadsWhatItWrites : Prop :=
  ∀ i : Instr, readInstr (writeInstr i) = some i

/-! ## Serving a request (spec/20_memory.md R47, spec/60_exceptions.md) -/

/-- R47: when the outstanding request decodes to `i`, a step is `exec i`, be it that the host makes no further move or
that it waits; the host's `wait` is then gone, which is all the step adds (the scheduling is the model's choice,
notes/assumptions/5.md). -/
def Obligations.StepRunsTheRequest : Prop :=
  ∀ (s : State) (r : Request) (i : Instr), s.request = some r → decodeRequest r = .ok i →
    (s.host = [] → step s = exec i s) ∧
    (∀ ms, s.host = .wait :: ms → step s = exec i { s with host := ms })

/-- The model's choice (notes/assumptions/5.md and 6.md): a step performs the host's next move, and does nothing when the
host makes none and no request is outstanding. -/
def Obligations.StepPerformsTheHostsMove : Prop :=
  ∀ s : State, s.params.ok = true →
    (∀ m ms, s.host = m :: ms → step s = hostAct m { s with host := ms }) ∧
    (s.host = [] → s.request = none → step s = .next s)

/-- R170: the common checks, in order; the first that fails ends the request, with nothing but the result registers
written. The next state is the same whatever IN holds, written or not, so no byte of IN is read. -/
def Obligations.CommonChecksInOrder : Prop :=
  ∀ (s : State) (r : Request), s.params.ok = true → s.host = [] → s.request = some r →
    ((∀ i, decodeRequest r ≠ .ok i) →
      step s = .next { s with res := Results.only .illegalOp, request := none }) ∧
    ((∃ i, decodeRequest r = .ok i) → r.inEnd > s.params.nMax →
      step s = .next { s with res := Results.only .inputTooLong, request := none }) ∧
    ((∃ i, decodeRequest r = .ok i) → r.inEnd ≤ s.params.nMax → r.fromOff > r.inEnd →
      step s = .next { s with res := Results.only .badOffset, request := none })

/-- R62: a reserved `CMD` performs nothing and finishes with `ILLEGAL_OP` (`0x05`), for every reserved `OP` value and for
every non-zero `CMD[31:3]`. -/
def Obligations.ReservedCmdPerformsNothing : Prop :=
  ∀ (s : State) (r : Request), s.params.ok = true → s.host = [] → s.request = some r →
    (5 ≤ (opField r.cmd).toNat ∨ rsvField r.cmd ≠ 0#29) →
    step s = .next
      { s with
        request := none
        res := { status := 0x05#8, flags := 0x00#8, outLen := 0, consumed := 0, start := 0, endAt := 0, size := 0 } }

/-- R171: the causes of every status that an operation finishes with, and that every status but OK records nothing else
and leaves OUT unchanged. -/
def Obligations.StatusCodesAndTheirCauses : Prop :=
  ∀ (s t : State) (i : Instr), exec i s = .next t →
    (t.res.status = 0x03#8 ↔ s.params.nMax < i.inEnd) ∧
    (t.res.status = 0x04#8 ↔ i.inEnd ≤ s.params.nMax ∧ i.inEnd < i.fromOff) ∧
    (t.res.status = 0x01#8 → i = .findFrame i.fromOff i.inEnd ∧
      ∀ a, i.fromOff ≤ a → a < i.inEnd → ∃ b, s.inp.read a = some b ∧ b ≠ zeroByte) ∧
    (t.res.status = 0x02#8 →
      (i = .encode i.fromOff i.inEnd ∧ s.params.outCap < (cobsEncode (s.window i.fromOff i.inEnd)).length) ∨
      (i = .decode i.fromOff i.inEnd ∧ s.params.outCap < (cobsDecode (s.window i.fromOff i.inEnd)).y.length)) ∧
    t.res.status.toNat < 5 ∧
    (t.res.status ≠ 0x00#8 →
      t.out = s.out ∧
      t.res = { status := t.res.status, flags := 0x00#8, outLen := 0, consumed := 0, start := 0, endAt := 0, size := 0 })

/-- R173: a served request finishes with exactly one status, the first in the order of precedence that applies. A window
that lies inside IN must have been written (R45); nothing is asked of any other. -/
def Obligations.StatusPriority : Prop :=
  ∀ (s : State) (r : Request) (x : List Byte), s.params.ok = true → s.host = [] → s.request = some r →
    (r.inEnd ≤ s.params.nMax → r.fromOff ≤ r.inEnd → s.HoldsWindow r.fromOff r.inEnd x) →
    ∃ t, step s = .next t ∧ t.res.status =
      match decodeRequest r with
      | .error _ => 0x05#8
      | .ok i =>
        if s.params.nMax < r.inEnd then 0x03#8
        else if r.inEnd < r.fromOff then 0x04#8
        else
          match i with
          | .encode _ _ => if s.params.outCap < (cobsEncode x).length then 0x02#8 else 0x00#8
          | .decode _ _ => if s.params.outCap < (cobsDecode x).y.length then 0x02#8 else 0x00#8
          | .findFrame _ _ => if zeroByte ∈ x then 0x00#8 else 0x01#8
          | .encSize _ _ => 0x00#8
          | .encBound _ _ => 0x00#8

/-- R6, R182: a configuration that breaks the constraint is rejected. That every step and every operation is what refuses it
is deduced (notes/assumptions/3.md). -/
def Obligations.BadConfigurationIsRefused : Prop :=
  ∀ s : State, ¬ (s.params.nMax + 2 + s.params.nMax / 254 < 2 ^ s.params.lenW) →
    step s = .refused .badConfiguration ∧ ∀ i, exec i s = .refused .badConfiguration

/-- R45, R41, R182: an operation faults with `UNINIT_READ` exactly when it reads a byte the host has not written: any byte
of the window for ENCODE and ENC_SIZE, a byte up to the first zero for DECODE and FIND_FRAME, never for ENC_BOUND. -/
def Obligations.UninitReadFaultsExactly : Prop :=
  ∀ (s : State) (f e : Nat), s.Accepts f e →
    (exec (.encode f e) s = .fault .uninitRead ↔ ∃ a, f ≤ a ∧ a < e ∧ s.inp.read a = none) ∧
    (exec (.encSize f e) s = .fault .uninitRead ↔ ∃ a, f ≤ a ∧ a < e ∧ s.inp.read a = none) ∧
    (exec (.decode f e) s = .fault .uninitRead ↔
      ∃ a, f ≤ a ∧ a < e ∧ s.inp.read a = none ∧ ∀ b, f ≤ b → b < a → s.inp.read b ≠ some zeroByte) ∧
    (exec (.findFrame f e) s = .fault .uninitRead ↔
      ∃ a, f ≤ a ∧ a < e ∧ s.inp.read a = none ∧ ∀ b, f ≤ b → b < a → s.inp.read b ≠ some zeroByte) ∧
    (∀ r, exec (.encBound f e) s ≠ .fault r)

/-! ## The five operations -/

/-- R104: ENCODE, its `CMD`, its common checks, and what it does with the window `x`. -/
def Obligations.EncodeWritesTheFrame : Prop :=
  (∀ f e, decodeRequest { cmd := 0x00000000#32, fromOff := f, inEnd := e } = .ok (.encode f e)) ∧
  (∀ (s : State) (f e : Nat), s.params.ok = true → s.RunsCommonChecks (.encode f e)) ∧
  ∀ (s : State) (f e : Nat) (x : List Byte), s.Accepts f e → s.HoldsWindow f e x →
    (s.params.outCap < (cobsEncode x).length →
      exec (.encode f e) s = .next { s with res := Results.only .capacityExceeded, request := none }) ∧
    ((cobsEncode x).length ≤ s.params.outCap →
      ∃ t, exec (.encode f e) s = .next t ∧
        t.res = { Results.only .ok with outLen := (cobsEncode x).length } ∧
        t.OutIs s (cobsEncode x) ∧ t.request = none ∧ t.SameOutside s)

/-- R105: ENC_SIZE, its `CMD`, its common checks; for the window `x` it gives the exact encoded size, which is the length of
what ENCODE writes. -/
def Obligations.EncSizeGivesTheExactSize : Prop :=
  (∀ f e, decodeRequest { cmd := 0x00000003#32, fromOff := f, inEnd := e } = .ok (.encSize f e)) ∧
  (∀ (s : State) (f e : Nat), s.params.ok = true → s.RunsCommonChecks (.encSize f e)) ∧
  ∀ (s : State) (f e : Nat) (x : List Byte), s.Accepts f e → s.HoldsWindow f e x →
    exec (.encSize f e) s = .next { s with res := { Results.only .ok with size := encSize x }, request := none } ∧
    encSize x = (cobsEncode x).length

/-- R106: ENC_BOUND, its `CMD`, its common checks; it gives `n + 2 + floor(n / 254)` whatever IN holds, so it reads no byte
of it, and its largest `SIZE`, that of `N_MAX`, fits `LEN_W` bits. -/
def Obligations.EncBoundGivesTheBound : Prop :=
  (∀ f e, decodeRequest { cmd := 0x00000004#32, fromOff := f, inEnd := e } = .ok (.encBound f e)) ∧
  (∀ (s : State) (f e : Nat), s.params.ok = true → s.RunsCommonChecks (.encBound f e)) ∧
  ∀ (s : State) (f e : Nat), s.Accepts f e →
    exec (.encBound f e) s =
      .next { s with res := { Results.only .ok with size := (e - f) + 2 + (e - f) / 254 }, request := none } ∧
    (e - f) + 2 + (e - f) / 254 ≤ s.params.nMax + 2 + s.params.nMax / 254 ∧
    s.params.nMax + 2 + s.params.nMax / 254 < 2 ^ s.params.lenW

/-- R135: DECODE, its `CMD`, its common checks, and what it does with the bytes `x` it reads: the window, or as much of it as
there is up to the zero that stops it (R41). -/
def Obligations.DecodeWritesTheMessage : Prop :=
  (∀ f e, decodeRequest { cmd := 0x00000001#32, fromOff := f, inEnd := e } = .ok (.decode f e)) ∧
  (∀ (s : State) (f e : Nat), s.params.ok = true → s.RunsCommonChecks (.decode f e)) ∧
  ∀ (s : State) (f e : Nat) (x : List Byte), s.Accepts f e → s.InputAt f x → x.length ≤ e - f →
    ((cobsDecode x).term = true ∨ x.length = e - f) →
    (s.params.outCap < (cobsDecode x).y.length →
      exec (.decode f e) s = .next { s with res := Results.only .capacityExceeded, request := none } ∧
      s.params.outCap < e - f - 1) ∧
    ((cobsDecode x).y.length ≤ s.params.outCap →
      ∃ t, exec (.decode f e) s = .next t ∧
        t.res =
          { Results.only .ok with
            outLen := (cobsDecode x).y.length
            consumed := (cobsDecode x).used
            flags := decodeFlags (cobsDecode x).term (cobsDecode x).short } ∧
        flagTerm t.res.flags = (cobsDecode x).term ∧ flagShort t.res.flags = (cobsDecode x).short ∧
        flagReserved t.res.flags = 0#6 ∧
        t.OutIs s (cobsDecode x).y ∧ t.request = none ∧ t.SameOutside s)

/-- R150: FIND_FRAME, its `CMD`, its common checks; it gives the range from `FROM` to one past the first zero byte, or
`NOT_FOUND`. -/
def Obligations.FindFrameFindsTheFirstZero : Prop :=
  (∀ f e, decodeRequest { cmd := 0x00000002#32, fromOff := f, inEnd := e } = .ok (.findFrame f e)) ∧
  (∀ (s : State) (f e : Nat), s.params.ok = true → s.RunsCommonChecks (.findFrame f e)) ∧
  ∀ (s : State) (f e : Nat), s.Accepts f e →
    (∀ z, f ≤ z → z < e → s.inp.read z = some zeroByte →
      (∀ a, f ≤ a → a < z → ∃ b, s.inp.read a = some b ∧ b ≠ zeroByte) →
      exec (.findFrame f e) s =
        .next { s with res := { Results.only .ok with start := f, endAt := z + 1 }, request := none }) ∧
    ((∀ a, f ≤ a → a < e → ∃ b, s.inp.read a = some b ∧ b ≠ zeroByte) →
      exec (.findFrame f e) s = .next { s with res := Results.only .notFound, request := none })

/-- R32, R42, R47: the frame of every operation. It completes the request, changes nothing but the result registers and
OUT, and writes a register its rule does not name with 0. The model's own `outDefined` (notes/assumptions/10.md) becomes
`OUT_LEN` when an ENCODE or a DECODE finishes with OK, and is unchanged otherwise. -/
def Obligations.OperationsLeaveTheRest : Prop :=
  ∀ (s t : State) (i : Instr), exec i s = .next t →
    t.request = none ∧ t.SameOutside s ∧
    match i with
    | .encode _ _ =>
      t.outDefined = (if t.res.status = 0x00#8 then t.res.outLen else s.outDefined) ∧
      t.res = { Results.only .ok with status := t.res.status, outLen := t.res.outLen }
    | .decode _ _ =>
      t.outDefined = (if t.res.status = 0x00#8 then t.res.outLen else s.outDefined) ∧
      t.res = { Results.only .ok with
        status := t.res.status, outLen := t.res.outLen, consumed := t.res.consumed, flags := t.res.flags }
    | .findFrame _ _ =>
      t.out = s.out ∧ t.outDefined = s.outDefined ∧
      t.res = { Results.only .ok with status := t.res.status, start := t.res.start, endAt := t.res.endAt }
    | .encSize _ _ =>
      t.out = s.out ∧ t.outDefined = s.outDefined ∧
      t.res = { Results.only .ok with status := t.res.status, size := t.res.size }
    | .encBound _ _ =>
      t.out = s.out ∧ t.outDefined = s.outDefined ∧
      t.res = { Results.only .ok with status := t.res.status, size := t.res.size }

/-- R42: only an OK ENCODE or DECODE writes OUT, then exactly `OUT[0..OUT_LEN)`, within OUT's capacity; OUT is never
read. -/
def Obligations.OnlyTheResultIsWritten : Prop :=
  ∀ (s t : State) (i : Instr), exec i s = .next t →
    (t.res.status ≠ 0x00#8 → t.out = s.out) ∧
    ((∀ f e, i ≠ .encode f e) → (∀ f e, i ≠ .decode f e) → t.out = s.out) ∧
    (∀ a, a < t.res.outLen → (t.out.read a).isSome = true) ∧
    (∀ a, t.res.outLen ≤ a → t.out.read a = s.out.read a) ∧
    t.res.outLen ≤ s.params.outCap ∧
    ∀ (o : Mem) (d : Nat), SameAnswer (exec i { s with out := o, outDefined := d }) (exec i s)

/-- R33: statelessness. Two states that agree on the parameters and on the window's bytes give the same results and the
same committed bytes, whatever else they hold: for every operation, and for every request, reserved ones among them. -/
def Obligations.CodecIsStateless : Prop :=
  ∀ s s' : State, s.params = s'.params →
    (∀ i : Instr, (∀ a, i.fromOff ≤ a → a < i.inEnd → s.inp.read a = s'.inp.read a) →
      SameAnswer (exec i s) (exec i s')) ∧
    (∀ r : Request, s.request = some r → s'.request = some r → s.host = [] → s'.host = [] →
      (∀ a, r.fromOff ≤ a → a < r.inEnd → s.inp.read a = s'.inp.read a) →
      SameAnswer (step s) (step s'))

/-- R41: which bytes of IN an operation depends on: DECODE only on those it consumed, FIND_FRAME only on those up to its
frame's delimiter, ENC_BOUND and a request whose operand checks fail on none. -/
def Obligations.ReadsOnlyWhatItConsumes : Prop :=
  ∀ (s t : State) (m : Mem),
    (∀ f e, exec (.decode f e) s = .next t → t.res.status = 0x00#8 →
      (∀ a, f ≤ a → a < f + t.res.consumed → m.read a = s.inp.read a) →
      SameAnswer (exec (.decode f e) { s with inp := m }) (.next t)) ∧
    (∀ f e, exec (.findFrame f e) s = .next t → t.res.status = 0x00#8 →
      (∀ a, f ≤ a → a < t.res.endAt → m.read a = s.inp.read a) →
      SameAnswer (exec (.findFrame f e) { s with inp := m }) (.next t)) ∧
    (∀ f e, SameAnswer (exec (.encBound f e) { s with inp := m }) (exec (.encBound f e) s)) ∧
    (∀ i : Instr, s.params.nMax < i.inEnd ∨ i.inEnd < i.fromOff →
      SameAnswer (exec i { s with inp := m }) (exec i s))

/-- R46: the same request issued again gives the same results and leaves the same OUT. -/
def Obligations.RequestIsRepeatable : Prop :=
  ∀ (s t : State) (i : Instr), exec i s = .next t →
    ∃ u, exec i t = .next u ∧ u.res = t.res ∧ ∀ a, u.out.read a = t.out.read a

/-! ## The encoder (spec/40_encode.md) -/

/-- R101: the block-length counter after any input. It is in `1..0xFE` between two bytes and in `1..0xFF` within one, so it
never wraps; it is the distance from the saved code slot to the end of the output; a non-zero byte counts one; it starts
again at 1 when a block ends, which is at a zero byte and at the 254th literal. -/
def Obligations.BlockCounterNeverWraps : Prop :=
  ∀ (x : List Byte) (b : Byte),
    let e := x.foldl encStep encStart
    1 ≤ e.c.toNat ∧ e.c.toNat ≤ 0xFE ∧ e.codeIdx + e.c.toNat = e.y.length ∧
    (b ≠ zeroByte → (encCopy e b).c.toNat = e.c.toNat + 1 ∧ (encCopy e b).c.toNat ≤ 0xFF) ∧
    (b = zeroByte ∨ e.c.toNat = 0xFE → (encStep e b).c = 1#8) ∧
    (b ≠ zeroByte → e.c.toNat < 0xFE → (encStep e b).c.toNat = e.c.toNat + 1)

/-- R102: the encoded length, from the zero-free segments of the input. -/
def Obligations.EncodedLength : Prop :=
  ∀ x : List Byte,
    encSize x = (cobsEncode x).length ∧
    (cobsEncode x).length = x.length + 2 + ((segments x).map fun s => s.length / 254).sum ∧
    (segments x).length = x.count zeroByte + 1 ∧
    (∀ s ∈ segments x, zeroByte ∉ s) ∧
    List.intercalate [zeroByte] (segments x) = x

/-- R103: the output of cobs_encode has one zero byte, its last; it is a canonical frame; and it decodes to the input with
`TERM = 1`, `SHORT = 0` and every byte consumed. -/
def Obligations.EncodeOutputProperties : Prop :=
  ∀ x : List Byte,
    (∃ body, cobsEncode x = body ++ [zeroByte] ∧ zeroByte ∉ body) ∧
    CanonicalFrame (cobsEncode x) ∧
    cobsDecode (cobsEncode x) = { y := x, term := true, short := false, used := (cobsEncode x).length }

/-- R107: the bound is tight, and the source's expression falls short by exactly 1 at the multiples of 254 alone. -/
def Obligations.BoundIsTight : Prop :=
  (∀ x : List Byte, encSize x ≤ x.length + 2 + x.length / 254) ∧
  (∀ x : List Byte, zeroByte ∉ x → encSize x = x.length + 2 + x.length / 254) ∧
  (∀ n : Nat, n % 254 = 0 → n + 1 + (n + 253) / 254 + 1 = n + 2 + n / 254) ∧
  (∀ n : Nat, n % 254 ≠ 0 → n + 1 + (n + 253) / 254 = n + 2 + n / 254)

/-- R108: `n + 2` is the encoded size exactly when every zero-free segment is shorter than 254 bytes, and less otherwise;
ENCODE never writes past `OUT_CAP`. -/
def Obligations.OriginalEstimateUndercounts : Prop :=
  (∀ x : List Byte, (x.length + 2 = encSize x ↔ ∀ s ∈ segments x, s.length < 254) ∧
    ((∃ s ∈ segments x, 254 ≤ s.length) → x.length + 2 < encSize x)) ∧
  (∀ (s t : State) (f e : Nat), exec (.encode f e) s = .next t →
    ∀ a, s.params.outCap ≤ a → t.out.read a = s.out.read a)

/-- R70: after an OK ENCODE, `OUT[0..OUT_LEN)` ends in a zero byte and holds no other. -/
def Obligations.NoZeroInTheBody : Prop :=
  ∀ (s t : State) (f e : Nat), exec (.encode f e) s = .next t → t.res.status = 0x00#8 →
    2 ≤ t.res.outLen ∧ t.out.read (t.res.outLen - 1) = some zeroByte ∧
    ∀ a, a + 1 < t.res.outLen → ∃ b, t.out.read a = some b ∧ b ≠ zeroByte

/-! ## The frame format (spec/30_encoding.md) -/

/-- R67: a well-formed frame holds exactly one zero byte, its last, and its length is one more than the sum of its codes. -/
def Obligations.WellFormedFrameShape : Prop :=
  ∀ (bs : List Block) (f : List Byte), FrameOf bs f →
    (∃ body, f = body ++ [zeroByte] ∧ zeroByte ∉ body) ∧
    f.length = 1 + (bs.map fun b => b.code.toNat).sum

/-- R68: ENCODE gives exactly the canonical frames; encoding what a canonical frame decodes to gives it back; a final
zero-free run of `254 * m` bytes gives a full block and a last block `[0x01]`; and a well-formed frame that is not
canonical decodes like the one with an extra last block `[0x01]`. -/
def Obligations.CanonicalFramesAreTheEncoded : Prop :=
  (∀ f : List Byte, CanonicalFrame f ↔ ∃ x, cobsEncode x = f) ∧
  (∀ f : List Byte, CanonicalFrame f → cobsEncode (cobsDecode f).y = f) ∧
  (∀ (p r : List Byte) (m : Nat), (p = [] ∨ p.getLast? = some zeroByte) → zeroByte ∉ r → 1 ≤ m → r.length = 254 * m →
    ∃ bs lits, (∀ b ∈ bs, b.ok = true) ∧ Block.ok ⟨fullCode, lits⟩ = true ∧
      cobsEncode (p ++ r) = frameBytes (bs ++ [⟨fullCode, lits⟩, ⟨0x01#8, []⟩])) ∧
  (∀ (bs : List Block) (f : List Byte), FrameOf bs f → lastCode bs = fullCode →
    (cobsDecode f).y = (cobsDecode (frameBytes (bs ++ [⟨0x01#8, []⟩]))).y ∧
    CanonicalFrame (frameBytes (bs ++ [⟨0x01#8, []⟩])) ∧ ∀ x, cobsEncode x ≠ f)

/-- R69: FIND_FRAME tells a frame's length: over a well-formed frame and whatever follows it, `END` is one past the frame. -/
def Obligations.FrameLengthIsFound : Prop :=
  ∀ (s : State) (f e : Nat) (frame tl : List Byte), s.Accepts f e → WellFormedFrame frame →
    s.HoldsWindow f e (frame ++ tl) →
    exec (.findFrame f e) s =
      .next { s with res := { Results.only .ok with start := f, endAt := f + frame.length }, request := none }

/-! ## The decoder (spec/41_decode.md) -/

/-- R131: the decode flags. -/
def Obligations.DecodeFlagsMeaning : Prop :=
  (∀ x : List Byte,
    ((cobsDecode x).term = true ↔ ∃ k, (cobsDecode x).used = k + 1 ∧ x[k]? = some zeroByte) ∧
    ((cobsDecode x).short = true ↔
      ∃ (bs : List Block) (c : Byte) (lits : List Byte), (∀ b ∈ bs, b.ok = true) ∧ c ≠ zeroByte ∧ zeroByte ∉ lits ∧
        lits.length < c.toNat - 1 ∧
        x.take (cobsDecode x).used =
          blocksBytes bs ++ c :: lits ++ (if (cobsDecode x).term then [zeroByte] else []))) ∧
  (∀ f : List Byte, WellFormedFrame f → (cobsDecode f).term = true ∧ (cobsDecode f).short = false) ∧
  (cobsDecode []).term = false ∧ (cobsDecode []).short = false ∧
  (∀ (s t : State) (f e : Nat), exec (.decode f e) s = .next t → t.res.status = 0x00#8 →
    flagTerm t.res.flags = (cobsDecode (s.window f e)).term ∧
    flagShort t.res.flags = (cobsDecode (s.window f e)).short ∧ flagReserved t.res.flags = 0#6)

/-- R132: where decoding stops, and that nothing after the stop matters. -/
def Obligations.DecodeStopPoint : Prop :=
  (∀ x : List Byte,
    (cobsDecode x).used ≤ x.length ∧
    ((cobsDecode x).term = true →
      ∀ tl, cobsDecode (x.take (cobsDecode x).used ++ tl) = cobsDecode x) ∧
    ((cobsDecode x).term = false → (cobsDecode x).used = x.length)) ∧
  (∀ f : List Byte, WellFormedFrame f → (cobsDecode f).used = f.length) ∧
  (∀ (s t : State) (f e : Nat), exec (.decode f e) s = .next t → t.res.status = 0x00#8 →
    t.res.consumed = (cobsDecode (s.window f e)).used)

/-- R133: what cobs_decode gives for input that is not a well-formed frame, (a) to (e), and that every input is of one of
these shapes; none of them changes `STATUS`. -/
def Obligations.MalformedInputDecodes : Prop :=
  (∀ (bs : List Block) (c : Byte) (lits : List Byte), (∀ b ∈ bs, b.ok = true) → c ≠ zeroByte → zeroByte ∉ lits →
    lits.length < c.toNat - 1 →
    (∀ tl, cobsDecode (blocksBytes bs ++ c :: lits ++ zeroByte :: tl) =
      { y := blocksContent (bs ++ [⟨c, lits⟩]), term := true, short := true,
        used := (blocksBytes bs).length + lits.length + 2 }) ∧
    cobsDecode (blocksBytes bs ++ c :: lits) =
      { y := blocksContent (bs ++ [⟨c, lits⟩]), term := false, short := true,
        used := (blocksBytes bs).length + lits.length + 1 }) ∧
  (∀ bs : List Block, (∀ b ∈ bs, b.ok = true) →
    cobsDecode (blocksBytes bs) =
      { y := blocksContent bs, term := false, short := false, used := (blocksBytes bs).length } ∧
    ∀ tl, cobsDecode (frameBytes bs ++ tl) =
      { y := blocksContent bs, term := true, short := false, used := (frameBytes bs).length }) ∧
  (∀ x : List Byte, ∃ bs : List Block, (∀ b ∈ bs, b.ok = true) ∧
    (x = blocksBytes bs ∨ (∃ tl, x = frameBytes bs ++ tl) ∨
      ∃ c lits, c ≠ zeroByte ∧ zeroByte ∉ lits ∧ lits.length < c.toNat - 1 ∧
        (x = blocksBytes bs ++ c :: lits ∨ ∃ tl, x = blocksBytes bs ++ c :: lits ++ zeroByte :: tl))) ∧
  (∀ (s t : State) (f e : Nat), s.Accepts f e → exec (.decode f e) s = .next t →
    (cobsDecode (s.window f e)).y.length ≤ s.params.outCap → t.res.status = 0x00#8)

/-- R134: the decoded length, and that DECODE always fits where `OUT_CAP` is at least `max(0, N_MAX - 1)`. -/
def Obligations.DecodedLength : Prop :=
  (∀ x : List Byte, (cobsDecode x).y.length ≤ (cobsDecode x).used - 1 ∧
    ((cobsDecode x).term = true → (cobsDecode x).y.length ≤ (cobsDecode x).used - 2)) ∧
  (∀ (bs : List Block) (f : List Byte), FrameOf bs f →
    (cobsDecode f).y.length + 2 + bs.dropLast.countP (fun b => b.code = fullCode) = f.length) ∧
  (∀ (s t : State) (f e : Nat), s.params.nMax - 1 ≤ s.params.outCap → exec (.decode f e) s = .next t →
    t.res.status ≠ 0x02#8)

/-- R136: DECODE of a frame that decodes to nothing finishes with OK and `OUT_LEN = 0`. -/
def Obligations.EmptyMessageIsOk : Prop :=
  ∀ (s : State) (f e : Nat), s.Accepts f e → (s.HoldsWindow f e [0x00#8] ∨ s.HoldsWindow f e [0x01#8, 0x00#8]) →
    ∃ t, exec (.decode f e) s = .next t ∧ t.res.status = 0x00#8 ∧ t.res.outLen = 0 ∧ ∀ a, t.out.read a = s.out.read a

/-! ## The frame finder (spec/42_frame.md) -/

/-- R151: the range an OK FIND_FRAME names: content without a zero byte, then the delimiter. -/
def Obligations.FrameRange : Prop :=
  ∀ (s t : State) (f e : Nat), exec (.findFrame f e) s = .next t → t.res.status = 0x00#8 →
    t.res.start < t.res.endAt ∧
    s.inp.read (t.res.endAt - 1) = some zeroByte ∧
    ∀ a, t.res.start ≤ a → a < t.res.endAt - 1 → ∃ b, s.inp.read a = some b ∧ b ≠ zeroByte

/-- R152: FIND_FRAME depends on `IN[FROM..IN_END)` and, where it finds a frame, on `IN[FROM..END)` alone; a window with no
zero byte is `NOT_FOUND`. -/
def Obligations.ScannedRange : Prop :=
  ∀ (s : State) (f e : Nat), s.Accepts f e →
    (∀ m : Mem, (∀ a, f ≤ a → a < e → m.read a = s.inp.read a) →
      SameAnswer (exec (.findFrame f e) { s with inp := m }) (exec (.findFrame f e) s)) ∧
    (∀ (t : State) (m : Mem) (e' : Nat), exec (.findFrame f e) s = .next t → t.res.status = 0x00#8 →
      t.res.endAt ≤ e' → e' ≤ s.params.nMax → (∀ a, f ≤ a → a < t.res.endAt → m.read a = s.inp.read a) →
      SameAnswer (exec (.findFrame f e') { s with inp := m }) (.next t)) ∧
    (∀ x, s.HoldsWindow f e x → zeroByte ∉ x →
      ∃ t, exec (.findFrame f e) s = .next t ∧ t.res.status = 0x01#8)

/-- R153: after `NOT_FOUND`, the host writes more bytes at `IN_END`, and FIND_FRAME over the longer window depends on them
alone. -/
def Obligations.ResumptionAfterNotFound : Prop :=
  ∀ (s t : State) (f e : Nat) (bs : List Byte), exec (.findFrame f e) s = .next t → t.res.status = 0x01#8 →
    e + bs.length ≤ s.params.nMax →
    ∃ u, hostAct (.writeIn e bs) t = .next u ∧
      (∀ p q, bs = p ++ zeroByte :: q → zeroByte ∉ p →
        exec (.findFrame f (e + bs.length)) u =
          .next { u with res := { Results.only .ok with start := f, endAt := e + p.length + 1 }, request := none }) ∧
      (zeroByte ∉ bs →
        exec (.findFrame f (e + bs.length)) u = .next { u with res := Results.only .notFound, request := none })

/-- R154: walking successive frames. The ranges end one past each zero byte of the window, in order, and each begins where
the one before it ends. -/
def Obligations.WalkingFramesCoversThem : Prop :=
  ∀ (s : State) (f e fuel : Nat) (x : List Byte), s.Accepts f e → s.HoldsWindow f e x → x.length < fuel →
    (walkFrames e fuel f s).map Prod.snd = pastZeros f x ∧
    (walkFrames e fuel f s).map Prod.fst = (f :: pastZeros f x).dropLast

/-- R155: DECODE of the frame FIND_FRAME found, and of any longer window, give the same answer; both consume the frame and
stop at its delimiter. -/
def Obligations.FindFrameAgreesWithDecode : Prop :=
  ∀ (s t : State) (f e e' : Nat), exec (.findFrame f e) s = .next t → t.res.status = 0x00#8 →
    t.res.endAt ≤ e' → e' ≤ s.params.nMax →
    exec (.decode f e') s = exec (.decode f t.res.endAt) s ∧
    ∀ u, exec (.decode f e') s = .next u → u.res.status = 0x00#8 →
      u.res.consumed = t.res.endAt - f ∧ flagTerm u.res.flags = true

/-! ## The host (spec/60_exceptions.md R183) and reset (spec/70_reset_and_hazards.md) -/

/-- R190, R191: reset, with or without a request outstanding. The result registers are 0, no request is outstanding, and no
byte of IN or OUT is known. That `outDefined` is 0 is the model's choice (notes/assumptions/10.md), and that IN is as not
written after a reset during a request too is deduced (notes/assumptions/11.md). -/
def Obligations.ResetState : Prop :=
  (∀ s : State, ∃ t, hostAct .reset s = .next t ∧
    t.res = { status := 0x00#8, flags := 0x00#8, outLen := 0, consumed := 0, start := 0, endAt := 0, size := 0 } ∧
    t.request = none ∧ (∀ a, t.inp.read a = none) ∧ (∀ a, t.out.read a = none) ∧ t.outDefined = 0 ∧
    t.params = s.params) ∧
  (∀ p : Params,
    (State.resetWith p).res =
      { status := 0x00#8, flags := 0x00#8, outLen := 0, consumed := 0, start := 0, endAt := 0, size := 0 } ∧
    (State.resetWith p).request = none ∧ (∀ a, (State.resetWith p).inp.read a = none) ∧
    (∀ a, (State.resetWith p).out.read a = none) ∧ (State.resetWith p).params = p)

/-- R48, R183: a host write to IN puts the bytes there and changes nothing else. -/
def Obligations.HostWritesIn : Prop :=
  ∀ (s : State) (a : Nat) (bs : List Byte), s.request = none → a + bs.length ≤ s.params.nMax →
    ∃ t, hostAct (.writeIn a bs) s = .next t ∧ t.InputAt a bs ∧
      (∀ x, x < a ∨ a + bs.length ≤ x → t.inp.read x = s.inp.read x) ∧
      t.params = s.params ∧ t.request = none ∧ t.res = s.res ∧ t.out = s.out ∧ t.outDefined = s.outDefined ∧
      t.host = s.host ∧ t.seen = s.seen ∧ t.drawn = s.drawn

/-- R40, R183: the host has no address outside IN to write and none outside OUT to read (the fault is the model's,
notes/assumptions/12.md). -/
def Obligations.NoAddressOutsideTheBuffers : Prop :=
  ∀ (s : State) (a : Nat), s.request = none →
    (∀ bs : List Byte, bs ≠ [] → s.params.nMax < a + bs.length →
      hostAct (.writeIn a bs) s = .fault .noSuchAddress) ∧
    (∀ len, len ≠ 0 → s.params.outCap < a + len → hostAct (.readOut a len) s = .fault .noSuchAddress)

/-- R60, R22, R183: a request can be issued exactly when both operands fit their fields; every `CMD` can (the refusal of an
operand that does not fit is the model's, notes/assumptions/14.md). -/
def Obligations.IssueNeedsFittingOperands : Prop :=
  ∀ (s : State) (r : Request), s.request = none →
    (r.fromOff < 2 ^ s.params.lenW → r.inEnd < 2 ^ s.params.lenW →
      hostAct (.issue r) s = .next { s with request := some r }) ∧
    (2 ^ s.params.lenW ≤ r.fromOff ∨ 2 ^ s.params.lenW ≤ r.inEnd →
      hostAct (.issue r) s = .refused .operandTooWide)

/-- R22, R183: a request is latched when it is issued, awaited, and served as the operation it decodes to. -/
def Obligations.IssuedRequestIsServed : Prop :=
  ∀ (s : State) (i : Instr) (ms : List HostMove), s.params.ok = true → s.request = none →
    i.wellFormed s.params = true → s.host = .issue (encodeRequest i) :: .wait :: ms →
    ∃ t, step s = .next t ∧ t = { s with host := .wait :: ms, request := some (encodeRequest i) } ∧
      step t = exec i { s with host := ms, request := some (encodeRequest i) }

/-- R182, R194, R47: while a request is outstanding the host can neither issue another nor write IN, nor observe the block;
and whatever else it does but wait and reset leaves the request as it was latched (R22). -/
def Obligations.OverlappingMovesHaveNoMove : Prop :=
  ∀ (s : State) (q : Request), s.request = some q →
    (∀ r, hostAct (.issue r) s = .refused .noMove) ∧
    (∀ a bs, hostAct (.writeIn a bs) s = .refused .noMove) ∧
    (∀ r, hostAct (.readReg r) s = .refused .noMove) ∧
    (∀ a len, hostAct (.readOut a len) s = .refused .noMove) ∧
    (∀ r v, hostAct (.writeReg r v) s = .next s)

/-- R32: the host reads a result register, and a host write to one has no effect; no operation keeps a value of one. -/
def Obligations.ResultRegistersAreReadOnly : Prop :=
  (∀ (s : State) (r : ResultReg), s.request = none →
    hostAct (.readReg r) s = .next { s with seen := s.seen ++ [.reg r (s.res.get r)] }) ∧
  (∀ (s : State) (r : ResultReg) (v : Nat), hostAct (.writeReg r v) s = .next s) ∧
  (∀ (s : State) (i : Instr) (r : Results), exec i { s with res := r } = exec i { s with res := Results.only .ok })

/-- R45, R183: a host read of OUT gives the bytes of the last OK ENCODE or DECODE, and a free byte anywhere else (how far
the defined bytes go is the model's reading, notes/assumptions/10.md). -/
def Obligations.HostReadsOut : Prop :=
  ∀ (s : State) (a len : Nat), s.request = none → a + len ≤ s.params.outCap →
    ∃ bytes, hostAct (.readOut a len) s =
        .next { s with seen := s.seen ++ [.out a bytes], drawn := s.drawn + len } ∧
      bytes.length = len ∧
      (∀ j b, j < len → a + j < s.outDefined → s.out.read (a + j) = some b → bytes[j]? = some b) ∧
      (∀ j, j < len → s.outDefined ≤ a + j → bytes[j]? = some (Config.freeByte (s.drawn + j)))

/-- R48, R104, R183: what an OK ENCODE committed is what the host reads next. -/
def Obligations.HostReadsTheEncodedFrame : Prop :=
  ∀ (s : State) (f e : Nat) (x : List Byte), s.Accepts f e → s.HoldsWindow f e x →
    (cobsEncode x).length ≤ s.params.outCap →
    ∃ t u, exec (.encode f e) s = .next t ∧ hostAct (.readOut 0 t.res.outLen) t = .next u ∧
      u.seen = s.seen ++ [.out 0 (cobsEncode x)]

/-! ## The whole machine -/

/-- R36, R40, R6: the state after reset satisfies the invariant, for every configuration the model accepts, `State.reset`'s
among them (whose parameters are the model's choice, notes/assumptions/1.md). -/
def Obligations.InvariantAtReset : Prop :=
  (∀ p : Params, p.ok = true → (State.resetWith p).Inv) ∧ State.reset.Inv

/-- R6, R25 to R31, R40, R171, D23: every step keeps the invariant: every result register holds a value the spec allows,
every length fits `LEN_W` bits, IN and OUT keep their canonical form and their bounds, and what the last OK ENCODE or
DECODE committed is there. -/
def Obligations.InvariantKeptByStep : Prop :=
  ∀ s t : State, s.Inv → step s = .next t → t.Inv

/-- R40, R41, R42, R193: whatever a step does, the parameters never change, IN changes only through the host's write or its
reset, and OUT only when the block serves an ENCODE or a DECODE or the host resets. -/
def Obligations.WhatChangesTheMemories : Prop :=
  ∀ s t : State, step s = .next t →
    t.params = s.params ∧
    (t.inp = s.inp ∨ (∃ a bs ms, s.host = .writeIn a bs :: ms) ∨ ∃ ms, s.host = .reset :: ms) ∧
    (t.out = s.out ∨ (∃ ms, s.host = .reset :: ms) ∨
      ∃ r f e, s.request = some r ∧ (decodeRequest r = .ok (.encode f e) ∨ decodeRequest r = .ok (.decode f e)) ∧
        t.res.status = 0x00#8)

/-- R103, R104, R135: what ENCODE wrote, written back into IN by the host at any address where it fits, decodes through the
machine to the bytes that were encoded. -/
def Obligations.RoundTripThroughTheMachine : Prop :=
  ∀ (s : State) (f e b : Nat) (x : List Byte), s.Accepts f e → s.HoldsWindow f e x →
    (cobsEncode x).length ≤ s.params.outCap → b + (cobsEncode x).length ≤ s.params.nMax →
    ∃ t u v, exec (.encode f e) s = .next t ∧ hostAct (.writeIn b (cobsEncode x)) t = .next u ∧
      exec (.decode b (b + t.res.outLen)) u = .next v ∧
      v.OutIs u x ∧
      v.res = { Results.only .ok with outLen := x.length, consumed := t.res.outLen, flags := 0x01#8 }

/-- R185: `OUT_LEN` of ENCODE is the `SIZE` that ENC_SIZE gave for the same window, and ENCODE is turned away exactly when
that size exceeds `OUT_CAP`. -/
def Obligations.SizeBeforeSending : Prop :=
  ∀ (s t : State) (f e : Nat), exec (.encSize f e) s = .next t → t.res.status = 0x00#8 →
    ∃ u, exec (.encode f e) t = .next u ∧
      ((s.params.outCap < t.res.size ∧ u.res = Results.only .capacityExceeded ∧ u.out = s.out) ∨
       (t.res.size ≤ s.params.outCap ∧ u.res = { Results.only .ok with outLen := t.res.size }))

/-- R197: resynchronisation. After damaged bytes `d` up to and including the first zero byte, a frame that arrives whole is
found and decodes to the sender's bytes. -/
def Obligations.ResynchronisesAfterLoss : Prop :=
  ∀ (s : State) (f e : Nat) (d x q : List Byte), s.Accepts f e →
    s.HoldsWindow f e (d ++ zeroByte :: (cobsEncode x ++ q)) → zeroByte ∉ d → x.length ≤ s.params.outCap →
    ∃ t u v, exec (.findFrame f e) s = .next t ∧ t.res.endAt = f + d.length + 1 ∧
      exec (.findFrame t.res.endAt e) t = .next u ∧ u.res.start = t.res.endAt ∧
      u.res.endAt = t.res.endAt + (cobsEncode x).length ∧
      exec (.decode u.res.start u.res.endAt) u = .next v ∧ v.res.status = 0x00#8 ∧ v.OutIs s x ∧
      v.res.outLen = x.length

/-! ## The host awaits an answer, and reads it -/

/-- R170, R62: a request that the host awaits and that fails a common check completes with that check's status and nothing
else written, reserved `CMD`s among them; and a reserved `CMD` that the host issues and awaits (the form of a `<CMD=...>` line,
R64) is latched and then completes with `ILLEGAL_OP`. That the wait is then used up, and that issue and completion are two
steps, is the model's (notes/assumptions/4.md, 5.md). -/
def Obligations.AwaitedChecksEndTheRequest : Prop :=
  ∀ (s : State) (r : Request) (ms : List HostMove), s.params.ok = true →
    (s.request = some r → s.host = .wait :: ms →
      ((∀ i, decodeRequest r ≠ .ok i) →
        step s = .next { s with host := ms, res := Results.only .illegalOp, request := none }) ∧
      ((∃ i, decodeRequest r = .ok i) → r.inEnd > s.params.nMax →
        step s = .next { s with host := ms, res := Results.only .inputTooLong, request := none }) ∧
      ((∃ i, decodeRequest r = .ok i) → r.inEnd ≤ s.params.nMax → r.fromOff > r.inEnd →
        step s = .next { s with host := ms, res := Results.only .badOffset, request := none })) ∧
    (s.request = none → s.host = .issue r :: .wait :: ms → r.fits s.params = true →
      (5 ≤ (opField r.cmd).toNat ∨ rsvField r.cmd ≠ 0#29) →
      ∃ t, step s = .next t ∧ t = { s with host := .wait :: ms, request := some r } ∧
        step t = .next { s with host := ms, res := Results.only .illegalOp, request := none })

/-- R48, R135, R183: what an OK DECODE committed is what the host reads next, whatever was read of the window to decode it
(R41); the window's bytes `x` are as in DecodeWritesTheMessage. That the host's read is defined up to `OUT_LEN` is the spec's,
the field `outDefined` that says so the model's (notes/assumptions/10.md). -/
def Obligations.HostReadsTheDecodedMessage : Prop :=
  ∀ (s : State) (f e : Nat) (x : List Byte), s.Accepts f e → s.InputAt f x → x.length ≤ e - f →
    ((cobsDecode x).term = true ∨ x.length = e - f) → (cobsDecode x).y.length ≤ s.params.outCap →
    ∃ t u, exec (.decode f e) s = .next t ∧ t.outDefined = t.res.outLen ∧
      t.res.outLen = (cobsDecode x).y.length ∧ hostAct (.readOut 0 t.res.outLen) t = .next u ∧
      u.seen = s.seen ++ [.out 0 (cobsDecode x).y]
end

