-- ==== Sys2Proof/Laws/Decode.lean ====
section
/-! SUPPORT. The fields of the command word as numbers, and everything the decoder can answer (spec/30_encoding.md R60, R61). -/

namespace Sys2Proof

theorem opField_toNat (c : BitVec 32) : (opField c).toNat = c.toNat % 8 := by
  simp [opField, BitVec.extractLsb'_toNat]

theorem rsvField_eq_zero (c : BitVec 32) : rsvField c = 0#29 ↔ c.toNat < 8 := by
  have hc : c.toNat < 2 ^ 32 := c.isLt
  rw [← BitVec.toNat_inj, rsvField, BitVec.extractLsb'_toNat, Nat.shiftRight_eq_div_pow]
  simp only [BitVec.toNat_ofNat]
  omega

/-- Everything the decoder can answer: an operation, for the five command words of the table, or a reason. -/
theorem decodeRequest_cases (r : Request) :
    (r.cmd = 0x00000000#32 ∧ decodeRequest r = .ok (.encode r.fromOff r.inEnd)) ∨
    (r.cmd = 0x00000001#32 ∧ decodeRequest r = .ok (.decode r.fromOff r.inEnd)) ∨
    (r.cmd = 0x00000002#32 ∧ decodeRequest r = .ok (.findFrame r.fromOff r.inEnd)) ∨
    (r.cmd = 0x00000003#32 ∧ decodeRequest r = .ok (.encSize r.fromOff r.inEnd)) ∨
    (r.cmd = 0x00000004#32 ∧ decodeRequest r = .ok (.encBound r.fromOff r.inEnd)) ∨
    (5 ≤ r.cmd.toNat ∧ r.cmd.toNat < 8 ∧ decodeRequest r = .error .reservedOp) ∨
    (8 ≤ r.cmd.toNat ∧ decodeRequest r = .error .reservedBits) := by
  simp only [← BitVec.toNat_inj, BitVec.toNat_ofNat]
  by_cases h : r.cmd.toNat < 8
  · have hop : (opField r.cmd).toNat = r.cmd.toNat := by rw [opField_toNat]; omega
    simp only [decodeRequest, rsvField_eq_zero, if_pos h, hop]
    generalize r.cmd.toNat = n at h ⊢
    match n, h with
    | 0, _ => exact .inl ⟨rfl, rfl⟩
    | 1, _ => exact .inr (.inl ⟨rfl, rfl⟩)
    | 2, _ => exact .inr (.inr (.inl ⟨rfl, rfl⟩))
    | 3, _ => exact .inr (.inr (.inr (.inl ⟨rfl, rfl⟩)))
    | 4, _ => exact .inr (.inr (.inr (.inr (.inl ⟨rfl, rfl⟩))))
    | 5, _ => exact .inr (.inr (.inr (.inr (.inr (.inl ⟨by omega, by omega, rfl⟩)))))
    | 6, _ => exact .inr (.inr (.inr (.inr (.inr (.inl ⟨by omega, by omega, rfl⟩)))))
    | 7, _ => exact .inr (.inr (.inr (.inr (.inr (.inl ⟨by omega, by omega, rfl⟩)))))
  · have hr : ¬ rsvField r.cmd = 0#29 := by rw [rsvField_eq_zero]; exact h
    refine .inr (.inr (.inr (.inr (.inr (.inr ⟨by omega, ?_⟩)))))
    rw [decodeRequest, if_neg hr]

end Sys2Proof
end

