-- ==== Sys2Proof/Laws/Encoder.lean ====
section
/-! SUPPORT. The encoder of R100 writes blocks: cobs_encode equals a recursion over the input that gives them. -/

namespace Sys2Proof.Machine

/-- The blocks cobs_encode gives for the input still to read, when the open block holds the literals `p`. -/
def encBlocks (p : List Byte) : List Byte → List Block
  | [] => [{ code := BitVec.ofNat 8 (p.length + 1), lits := p }]
  | b :: bs =>
    if b = zeroByte then { code := BitVec.ofNat 8 (p.length + 1), lits := p } :: encBlocks [] bs
    else if p.length = 253 then { code := fullCode, lits := p ++ [b] } :: encBlocks [] bs
    else encBlocks (p ++ [b]) bs

/-- The encoder's working registers with the closed blocks `pre` written and the literals `p` in the open one. -/
def encShape (pre p : List Byte) : EncState :=
  { y := pre ++ zeroByte :: p, codeIdx := pre.length, c := BitVec.ofNat 8 (p.length + 1) }

theorem encStart_eq : encStart = encShape [] [] := rfl

/-- Writing the counter into the saved slot puts the code in front of the open block's literals. -/
theorem encShape_set (pre p : List Byte) :
    (encShape pre p).y.set (encShape pre p).codeIdx (encShape pre p).c =
      pre ++ BitVec.ofNat 8 (p.length + 1) :: p := by
  simp [encShape]

theorem encFinish_shape (pre p : List Byte) :
    encFinish (encShape pre p) = pre ++ BitVec.ofNat 8 (p.length + 1) :: p ++ [zeroByte] := by
  rw [encFinish, encShape_set]

theorem encClose_shape (pre p : List Byte) :
    encClose (encShape pre p) = encShape (pre ++ BitVec.ofNat 8 (p.length + 1) :: p) [] := by
  rw [encClose, encShape_set]; simp [encShape]

theorem encCopy_shape (pre p : List Byte) {b : Byte} (h : b ≠ zeroByte) :
    encCopy (encShape pre p) b = encShape pre (p ++ [b]) := by
  simp [encCopy, h, encShape, ← BitVec.ofNat_add]

/-- A code reaches 0xFF exactly when the open block holds 254 literals. -/
theorem code_eq_full {n : Nat} (h : n ≤ 254) : BitVec.ofNat 8 (n + 1) = fullCode ↔ n = 254 := by
  constructor
  · intro hc
    have := congrArg BitVec.toNat hc
    simp only [BitVec.toNat_ofNat] at this
    change (n + 1) % 256 = 255 at this
    omega
  · rintro rfl; rfl

theorem code_ne_zero {n : Nat} (h : n ≤ 254) : BitVec.ofNat 8 (n + 1) ≠ zeroByte := by
  intro hc
  have := congrArg BitVec.toNat hc
  simp only [BitVec.toNat_ofNat] at this
  change (n + 1) % 256 = 0 at this
  omega

theorem code_toNat {n : Nat} (h : n ≤ 254) : (BitVec.ofNat 8 (n + 1)).toNat = n + 1 := by
  rw [BitVec.toNat_ofNat]; exact Nat.mod_eq_of_lt (by omega)

/-- A zero byte ends the open block. -/
theorem encStep_zero (pre p : List Byte) :
    encStep (encShape pre p) zeroByte = encShape (pre ++ BitVec.ofNat 8 (p.length + 1) :: p) [] := by
  rw [encStep, ← encClose_shape]; simp [encCopy]

/-- The 254th literal ends the open block, with code 0xFF. -/
theorem encStep_full (pre p : List Byte) {b : Byte} (hb : b ≠ zeroByte) (hp : p.length = 253) :
    encStep (encShape pre p) b = encShape (pre ++ fullCode :: (p ++ [b])) [] := by
  have hc : BitVec.ofNat 8 ((p ++ [b]).length + 1) = fullCode := by
    rw [List.length_append, hp]; rfl
  have hc' : (encShape pre (p ++ [b])).c = fullCode := hc
  rw [encStep, encCopy_shape _ _ hb]
  simp only [hc', or_true, if_true]
  rw [encClose_shape, hc]

/-- Any other literal joins the open block. -/
theorem encStep_lit (pre p : List Byte) {b : Byte} (hb : b ≠ zeroByte) (hp : p.length < 253) :
    encStep (encShape pre p) b = encShape pre (p ++ [b]) := by
  have hc' : (encShape pre (p ++ [b])).c ≠ fullCode := by
    show BitVec.ofNat 8 ((p ++ [b]).length + 1) ≠ fullCode
    rw [Ne, code_eq_full (by simp; omega)]; simp; omega
  rw [encStep, encCopy_shape _ _ hb]
  simp [hb, hc']

theorem blocksBytes_cons (b : Block) (bs : List Block) :
    blocksBytes (b :: bs) = b.code :: b.lits ++ blocksBytes bs := rfl

theorem frameBytes_cons (b : Block) (bs : List Block) :
    frameBytes (b :: bs) = b.code :: b.lits ++ frameBytes bs := by
  simp [frameBytes, blocksBytes_cons]

theorem encFinish_foldl (x pre p : List Byte) (hp : p.length ≤ 253) :
    encFinish (x.foldl encStep (encShape pre p)) = pre ++ frameBytes (encBlocks p x) := by
  induction x generalizing pre p with
  | nil => simp [encFinish_shape, encBlocks, frameBytes, blocksBytes, Block.bytes]
  | cons b bs ih =>
    rw [List.foldl_cons, encBlocks]
    by_cases hb : b = zeroByte
    · subst hb
      rw [encStep_zero, ih _ _ (by simp), if_pos rfl, frameBytes_cons]; simp
    · rw [if_neg hb]
      by_cases hl : p.length = 253
      · rw [encStep_full _ _ hb hl, ih _ _ (by simp), if_pos hl, frameBytes_cons]; simp
      · rw [encStep_lit _ _ hb (by omega), ih _ _ (by simp; omega), if_neg hl]

/-- cobs_encode gives the frame of its blocks. -/
theorem cobsEncode_eq_frame (x : List Byte) : cobsEncode x = frameBytes (encBlocks [] x) := by
  rw [cobsEncode, encStart_eq, encFinish_foldl x [] [] (by simp)]; rfl

/-- What the encoder's working registers hold after any input: the closed blocks, and fewer than 254 literals. -/
theorem foldl_encStep_shape (x pre p : List Byte) (hp : p.length ≤ 253) :
    ∃ pre' p', x.foldl encStep (encShape pre p) = encShape pre' p' ∧ p'.length ≤ 253 := by
  induction x generalizing pre p with
  | nil => exact ⟨pre, p, rfl, hp⟩
  | cons b bs ih =>
    rw [List.foldl_cons]
    by_cases hb : b = zeroByte
    · subst hb; rw [encStep_zero]; exact ih _ _ (by simp)
    · by_cases hl : p.length = 253
      · rw [encStep_full _ _ hb hl]; exact ih _ _ (by simp)
      · rw [encStep_lit _ _ hb (by omega)]; exact ih _ _ (by simp; omega)

theorem encBlocks_ne_nil (p x : List Byte) : encBlocks p x ≠ [] := by
  induction x generalizing p with
  | nil => simp [encBlocks]
  | cons b bs ih => simp only [encBlocks]; split; · simp
                    split
                    · simp
                    · exact ih _

/-- What it takes for a block of the encoder to be one of R67. -/
theorem Block.ok_iff (b : Block) :
    b.ok = true ↔ b.code ≠ zeroByte ∧ b.lits.length = b.code.toNat - 1 ∧ zeroByte ∉ b.lits := by
  simp [Block.ok, and_assoc]

theorem ok_of_lits {p : List Byte} (hz : zeroByte ∉ p) (hp : p.length ≤ 254) :
    Block.ok { code := BitVec.ofNat 8 (p.length + 1), lits := p } = true := by
  rw [Block.ok_iff]
  exact ⟨code_ne_zero hp, by rw [code_toNat hp]; rfl, hz⟩

/-- Every block the encoder gives is one of R67. -/
theorem encBlocks_ok (p x : List Byte) (hz : zeroByte ∉ p) (hp : p.length ≤ 253) :
    ∀ b ∈ encBlocks p x, b.ok = true := by
  induction x generalizing p with
  | nil => simpa [encBlocks] using ok_of_lits hz (by omega)
  | cons b bs ih =>
    simp only [encBlocks]
    split
    · intro c hc
      rcases List.mem_cons.mp hc with rfl | hc
      · exact ok_of_lits hz (by omega)
      · exact ih [] (by simp) (by simp) c hc
    · rename_i hb
      split
      · rename_i hl
        intro c hc
        rcases List.mem_cons.mp hc with rfl | hc
        · rw [Block.ok_iff]
          refine ⟨show fullCode ≠ zeroByte by decide, ?_, ?_⟩
          · simp [hl]
          · simp only [List.mem_append, List.mem_singleton, not_or]; exact ⟨hz, Ne.symm hb⟩
        · exact ih [] (by simp) (by simp) c hc
      · refine ih _ ?_ (by simp; omega)
        simp only [List.mem_append, List.mem_singleton, not_or]; exact ⟨hz, Ne.symm hb⟩

theorem lastCode_cons (b : Block) {bs : List Block} (h : bs ≠ []) : lastCode (b :: bs) = lastCode bs := by
  obtain ⟨c, cs, rfl⟩ := List.exists_cons_of_ne_nil h
  simp [lastCode, List.getLast?_cons_cons]

/-- The encoder's last block is never full (R101). -/
theorem encBlocks_lastCode (p x : List Byte) (hp : p.length ≤ 253) : lastCode (encBlocks p x) ≠ fullCode := by
  induction x generalizing p with
  | nil =>
    show BitVec.ofNat 8 (p.length + 1) ≠ fullCode
    rw [Ne, code_eq_full (by omega)]; omega
  | cons b bs ih =>
    simp only [encBlocks]
    split
    · rw [lastCode_cons _ (encBlocks_ne_nil _ _)]; exact ih [] (by simp)
    · split
      · rw [lastCode_cons _ (encBlocks_ne_nil _ _)]; exact ih [] (by simp)
      · exact ih _ (by simp; omega)

/-- The encoder's blocks carry its input. -/
theorem encBlocks_content (prev : Byte) (p x : List Byte) (hp : p.length ≤ 253) :
    contentAfter prev (encBlocks p x) = (if prev ≠ fullCode then [zeroByte] else []) ++ p ++ x := by
  induction x generalizing prev p with
  | nil => simp [encBlocks, contentAfter]
  | cons b bs ih =>
    simp only [encBlocks]
    split
    · rename_i hb
      rw [contentAfter, ih _ _ (by simp)]
      have : BitVec.ofNat 8 (p.length + 1) ≠ fullCode := by rw [Ne, code_eq_full (by omega)]; omega
      simp [this, hb]
    · split
      · rw [contentAfter, ih _ _ (by simp)]; simp
      · rw [ih _ _ (by simp; omega)]; simp

end Sys2Proof.Machine
end

