-- ==== Sys2Proof/Laws/Decoder.lean ====
section
/-! SUPPORT. The decoder of R130, block by block, and the delimiter it stops at. -/

namespace Sys2Proof.Machine

/-- The decoder over literals it still has to copy. -/
theorem decodeFrom_lits (prev : Byte) (k : Nat) (lits tl : List Byte) (hz : zeroByte ∉ lits) :
    decodeFrom prev (lits.length + k) (lits ++ tl) =
      { decodeFrom prev k tl with
        y := lits ++ (decodeFrom prev k tl).y
        used := lits.length + (decodeFrom prev k tl).used } := by
  induction lits with
  | nil => simp
  | cons b bs ih =>
    simp only [List.mem_cons, not_or] at hz
    have h1 : (b :: bs).length + k ≠ 0 := by simp only [List.length_cons]; omega
    have h2 : (b :: bs).length + k - 1 = bs.length + k := by simp only [List.length_cons]; omega
    rw [List.cons_append, decodeFrom, if_neg h1, if_neg (Ne.symm hz.1), h2, ih hz.2]
    simp; omega

/-- The decoder over a whole block (R66): the implicit zero of the block before it, then its literals. -/
theorem decodeFrom_block (prev : Byte) (b : Block) (tl : List Byte) (hb : b.ok = true) :
    decodeFrom prev 0 (b.bytes ++ tl) =
      { decodeFrom b.code 0 tl with
        y := (if prev ≠ fullCode then [zeroByte] else []) ++ b.lits ++ (decodeFrom b.code 0 tl).y
        used := b.bytes.length + (decodeFrom b.code 0 tl).used } := by
  obtain ⟨hc, hl, hz⟩ := (Block.ok_iff b).mp hb
  rw [Block.bytes, List.cons_append, decodeFrom, if_pos rfl, if_neg hc, ← hl]
  have := decodeFrom_lits b.code 0 b.lits tl hz
  rw [Nat.add_zero] at this
  rw [this]
  simp only [List.length_cons]
  congr 1
  · split <;> simp
  · omega

/-- The code of the last of some blocks, that of the block before them where there is none. -/
def lastCodeFrom (prev : Byte) (bs : List Block) : Byte := (bs.getLast?.map Block.code).getD prev

@[simp] theorem lastCodeFrom_nil (prev : Byte) : lastCodeFrom prev [] = prev := rfl

@[simp] theorem lastCodeFrom_cons (prev : Byte) (b : Block) (bs : List Block) :
    lastCodeFrom prev (b :: bs) = lastCodeFrom b.code bs := by
  cases bs with
  | nil => rfl
  | cons c cs =>
    rw [lastCodeFrom, lastCodeFrom, List.getLast?_cons_cons, List.getLast?_eq_some_getLast (List.cons_ne_nil c cs)]
    rfl

/-- The decoder over blocks and what follows them. -/
theorem decodeFrom_blocks (prev : Byte) (bs : List Block) (tl : List Byte) (hbs : ∀ b ∈ bs, b.ok = true) :
    decodeFrom prev 0 (blocksBytes bs ++ tl) =
      { decodeFrom (lastCodeFrom prev bs) 0 tl with
        y := contentAfter prev bs ++ (decodeFrom (lastCodeFrom prev bs) 0 tl).y
        used := (blocksBytes bs).length + (decodeFrom (lastCodeFrom prev bs) 0 tl).used } := by
  induction bs generalizing prev with
  | nil => simp [blocksBytes, contentAfter]
  | cons b bs ih =>
    have h : blocksBytes (b :: bs) ++ tl = b.bytes ++ (blocksBytes bs ++ tl) := by
      simp [blocksBytes]
    rw [h, decodeFrom_block prev b _ (hbs b (by simp)), ih b.code fun c hc => hbs c (by simp [hc])]
    simp [contentAfter, blocksBytes_cons, Block.bytes]
    omega

@[simp] theorem decodeFrom_nil (prev : Byte) : decodeFrom prev 0 [] = ⟨[], false, false, 0⟩ := rfl

@[simp] theorem decodeFrom_delimiter (prev : Byte) (tl : List Byte) :
    decodeFrom prev 0 (zeroByte :: tl) = ⟨[], true, false, 1⟩ := by
  simp [decodeFrom]

/-- There is no first zero exactly where there is no zero. -/
theorem firstZero_eq_none {x : List Byte} : firstZero x = none ↔ zeroByte ∉ x := by
  induction x with
  | nil => simp [firstZero]
  | cons b bs ih =>
    simp only [firstZero]
    split
    · rename_i h; simp [h]
    · rename_i h
      rw [Option.map_eq_none_iff, ih, List.mem_cons, not_or]
      exact ⟨fun h' => ⟨fun e => h e.symm, h'⟩, fun h' => h'.2⟩

/-- The first zero: zero-free bytes, then a zero. -/
theorem firstZero_eq_some {x : List Byte} {k : Nat} :
    firstZero x = some k ↔ ∃ p q, x = p ++ zeroByte :: q ∧ zeroByte ∉ p ∧ p.length = k := by
  constructor
  · intro h
    induction x generalizing k with
    | nil => simp [firstZero] at h
    | cons b bs ih =>
      simp only [firstZero] at h
      split at h
      · rename_i hb; cases h; exact ⟨[], bs, by simp [hb], by simp, rfl⟩
      · rename_i hb
        obtain ⟨j, hj, rfl⟩ := Option.map_eq_some_iff.mp h
        obtain ⟨p, q, rfl, hz, rfl⟩ := ih hj
        exact ⟨b :: p, q, rfl, by simp only [List.mem_cons, not_or]; exact ⟨Ne.symm hb, hz⟩, rfl⟩
  · rintro ⟨p, q, rfl, hz, rfl⟩
    induction p with
    | nil => simp [firstZero]
    | cons b bs ih =>
      simp only [List.mem_cons, not_or] at hz
      simp [firstZero, Ne.symm hz.1, ih hz.2]

/-- The decoder stops on a zero exactly where there is one, and it reads up to the first (R131, R132). -/
theorem decodeFrom_stop (prev : Byte) (left : Nat) (x : List Byte) :
    (decodeFrom prev left x).term = (firstZero x).isSome ∧
    (decodeFrom prev left x).used = ((firstZero x).map (· + 1)).getD x.length := by
  induction x generalizing prev left with
  | nil => simp [decodeFrom, firstZero]
  | cons b bs ih =>
    by_cases hb : b = zeroByte
    · subst hb
      simp only [decodeFrom, firstZero, if_true]
      split <;> simp
    · have key : ∀ p l, (decodeFrom p l bs).term = ((firstZero bs).map (· + 1)).isSome ∧
          (decodeFrom p l bs).used + 1 = (((firstZero bs).map (· + 1)).map (· + 1)).getD (b :: bs).length := by
        intro p l
        obtain ⟨h1, h2⟩ := ih p l
        rw [h1, h2]
        cases firstZero bs <;> simp
      simp only [decodeFrom, firstZero, if_neg hb]
      split
      · exact key _ _
      · exact key _ _

/-- What the decoder gives when it has stopped on a zero does not depend on what follows (R132). -/
theorem decodeFrom_append (prev : Byte) (left : Nat) (x tl : List Byte) (h : (decodeFrom prev left x).term = true) :
    decodeFrom prev left (x ++ tl) = decodeFrom prev left x := by
  induction x generalizing prev left with
  | nil => simp [decodeFrom] at h
  | cons b bs ih =>
    rw [List.cons_append]
    by_cases hb : b = zeroByte
    · subst hb; simp [decodeFrom]
    · simp only [decodeFrom, if_neg hb] at h ⊢
      split at h
      · rename_i hl; simp only [if_pos hl]; rw [ih _ _ h]
      · rename_i hl; simp only [if_neg hl]; rw [ih _ _ h]

end Sys2Proof.Machine
end

