-- ==== Sys2Proof/Laws/Memory.lean ====
section
/-! SUPPORT. The memory's laws: read after write, and that every write keeps the canonical form and the bounds. -/

namespace Sys2Proof.Machine

@[simp] theorem Mem.read_nil (x : Nat) : Mem.read [] x = none := rfl

/-- A read after a write: the written byte at the written address, the byte before anywhere else. -/
theorem Mem.read_write (m : Mem) (x y : Nat) (v : Byte) :
    (m.write x v).read y = if y = x then some v else m.read y := by
  induction m with
  | nil => simp only [Mem.write, Mem.read]; split <;> split <;> simp_all
  | cons c m ih =>
    obtain ⟨a, b⟩ := c
    by_cases h1 : x < a
    · simp only [Mem.write, if_pos h1, Mem.read, eq_comm (a := x)]
    · by_cases h2 : x = a
      · subst h2; simp only [Mem.write, if_neg h1, if_pos, Mem.read, eq_comm (a := x)]; split <;> rfl
      · simp only [Mem.write, if_neg h1, if_neg h2, Mem.read, ih]
        split
        · rw [if_neg (by omega)]
        · rfl

/-- The addresses of a memory after a write: those before and the written one. -/
theorem Mem.mem_keys_write (m : Mem) (x : Nat) (v : Byte) (y : Nat) :
    y ∈ (m.write x v).map Prod.fst ↔ y = x ∨ y ∈ m.map Prod.fst := by
  induction m with
  | nil => simp [Mem.write]
  | cons c m ih =>
    obtain ⟨a, b⟩ := c
    simp only [Mem.write]
    split
    · simp
    · split
      · simp_all
      · simp only [List.map_cons, List.mem_cons, ih]; tauto

/-- A write keeps the canonical form. -/
theorem Mem.write_wf {m : Mem} (h : m.Wf) (x : Nat) (v : Byte) : (m.write x v).Wf := by
  induction m with
  | nil => simp [Mem.write, Mem.Wf]
  | cons c m ih =>
    obtain ⟨a, b⟩ := c
    obtain ⟨h1, h2⟩ := List.pairwise_cons.mp (by simpa [Mem.Wf] using h : (a :: m.map Prod.fst).Pairwise (· < ·))
    simp only [Mem.write]
    split
    · rename_i hx
      refine List.pairwise_cons.mpr ⟨fun y hy => ?_, h⟩
      rcases List.mem_cons.mp hy with rfl | hy
      · exact hx
      · exact Nat.lt_trans hx (h1 y hy)
    · split
      · rename_i hx; subst hx; exact List.pairwise_cons.mpr ⟨h1, h2⟩
      · refine List.pairwise_cons.mpr ⟨fun y hy => ?_, ih h2⟩
        rcases (Mem.mem_keys_write m x v y).mp hy with rfl | hy
        · show a < y; omega
        · exact h1 y hy

/-- Writing successive bytes keeps the canonical form. -/
theorem Mem.writeBytes_wf {m : Mem} (h : m.Wf) (x : Nat) (bs : List Byte) : (m.writeBytes x bs).Wf := by
  induction bs generalizing m x with
  | nil => exact h
  | cons b bs ih => exact ih (Mem.write_wf h x b) (x + 1)

/-- A read after writing successive bytes. -/
theorem Mem.read_writeBytes (m : Mem) (x : Nat) (bs : List Byte) (y : Nat) :
    (m.writeBytes x bs).read y = if x ≤ y ∧ y < x + bs.length then bs[y - x]? else m.read y := by
  induction bs generalizing m x with
  | nil => simp only [Mem.writeBytes, List.length_nil]; split; · omega
           rfl
  | cons b bs ih =>
    simp only [Mem.writeBytes, ih, Mem.read_write, List.length_cons]
    by_cases h1 : x + 1 ≤ y ∧ y < x + 1 + bs.length
    · rw [if_pos h1, if_pos (by omega), show y - x = (y - (x + 1)) + 1 by omega, List.getElem?_cons_succ]
    · rw [if_neg h1]
      by_cases h2 : y = x
      · subst h2; simp
      · rw [if_neg h2, if_neg (by omega)]

/-- Written bytes read back in order. -/
theorem Mem.read_writeBytes_in (m : Mem) (x : Nat) (bs : List Byte) (j : Nat) (h : j < bs.length) :
    (m.writeBytes x bs).read (x + j) = bs[j]? := by
  rw [Mem.read_writeBytes, if_pos (by omega), Nat.add_sub_cancel_left]

/-- Bytes outside the written ones are as before. -/
theorem Mem.read_writeBytes_out (m : Mem) (x : Nat) (bs : List Byte) (y : Nat) (h : y < x ∨ x + bs.length ≤ y) :
    (m.writeBytes x bs).read y = m.read y := by
  rw [Mem.read_writeBytes, if_neg (by omega)]

/-- Writing inside the bounds keeps a memory within them. -/
theorem Mem.writeBytes_fits {m : Mem} {cap : Nat} (h : m.Fits cap) (x : Nat) (bs : List Byte)
    (hx : bs.length = 0 ∨ x + bs.length ≤ cap) : (m.writeBytes x bs).Fits cap :=
  ⟨Mem.writeBytes_wf h.1 x bs, fun a ha => by
    rw [Mem.read_writeBytes_out _ _ _ _ (by omega)]; exact h.2 a ha⟩

/-- An empty memory is canonical and within every bound. -/
theorem Mem.nil_fits (cap : Nat) : Mem.Fits [] cap := ⟨List.Pairwise.nil, fun _ _ => rfl⟩

theorem Mem.readable_length_le (m : Mem) (x n : Nat) : (m.readable x n).length ≤ n := by
  induction n generalizing x with
  | zero => simp [Mem.readable]
  | succ n ih =>
    simp only [Mem.readable]
    split
    · simpa using ih (x + 1)
    · simp

/-- The readable bytes are the bytes of the memory, in address order. -/
theorem Mem.readable_get (m : Mem) (x n j : Nat) (h : j < (m.readable x n).length) :
    m.read (x + j) = (m.readable x n)[j]? := by
  induction n generalizing x j with
  | zero => simp [Mem.readable] at h
  | succ n ih =>
    simp only [Mem.readable] at h ⊢
    split
    · rename_i b hb
      cases j with
      | zero => simpa using hb
      | succ j =>
        simp only [hb] at h
        have := ih (x + 1) j (by simpa using h)
        rw [List.getElem?_cons_succ, ← this]; congr 1; omega
    · rename_i hb; simp [hb] at h

/-- Where the readable bytes end early, the next byte was not written. -/
theorem Mem.readable_stop (m : Mem) (x n : Nat) (h : (m.readable x n).length < n) :
    m.read (x + (m.readable x n).length) = none := by
  induction n generalizing x with
  | zero => omega
  | succ n ih =>
    simp only [Mem.readable] at h ⊢
    split
    · rename_i b hb
      simp only [hb, List.length_cons] at h
      have := ih (x + 1) (by omega)
      rw [List.length_cons, ← this]; congr 1; omega
    · rename_i hb; simpa using hb

/-- Bytes that stand in memory, as many as are asked for, are the readable ones. -/
theorem Mem.readable_eq (m : Mem) (x : Nat) (bs : List Byte) (h : ∀ j, j < bs.length → m.read (x + j) = bs[j]?) :
    m.readable x bs.length = bs := by
  induction bs generalizing x with
  | nil => rfl
  | cons b bs ih =>
    have h0 : m.read x = some b := by simpa using h 0 (by simp)
    simp only [List.length_cons, Mem.readable, h0]
    rw [ih (x + 1) fun j hj => by
      have := h (j + 1) (by simpa using hj)
      rw [List.getElem?_cons_succ] at this
      rw [← this]; congr 1; omega]

/-- The readable bytes depend on the bytes asked for alone. -/
theorem Mem.readable_congr (m m' : Mem) (x n : Nat) (h : ∀ a, x ≤ a → a < x + n → m.read a = m'.read a) :
    m.readable x n = m'.readable x n := by
  induction n generalizing x with
  | zero => rfl
  | succ n ih =>
    simp only [Mem.readable]
    rw [h x (by omega) (by omega), ih (x + 1) fun a h1 h2 => h a (by omega) (by omega)]

/-- Asking for fewer bytes gives a prefix. -/
theorem Mem.readable_take (m : Mem) (x n k : Nat) (h : k ≤ n) : m.readable x k = (m.readable x n).take k := by
  induction k generalizing x n with
  | zero => simp [Mem.readable]
  | succ k ih =>
    obtain ⟨n, rfl⟩ : ∃ n', n = n' + 1 := ⟨n - 1, by omega⟩
    simp only [Mem.readable]
    split
    · rw [List.take_succ_cons, ih (x + 1) n (by omega)]
    · rfl

end Sys2Proof.Machine
end

