-- ==== Sys2Proof/Laws/State.lean ====
section
/-! SUPPORT. What each update of State leaves in each field, one lemma per field, and the values of `Results.only`. -/

namespace Sys2Proof.Machine

section
variable (s : State) (r : Results) (st : Status) (y : List Byte) (q : Request)

@[simp] theorem State.finish_params : (s.finish r).params = s.params := rfl
@[simp] theorem State.finish_request : (s.finish r).request = none := rfl
@[simp] theorem State.finish_res : (s.finish r).res = r := rfl
@[simp] theorem State.finish_inp : (s.finish r).inp = s.inp := rfl
@[simp] theorem State.finish_out : (s.finish r).out = s.out := rfl
@[simp] theorem State.finish_outDefined : (s.finish r).outDefined = s.outDefined := rfl
@[simp] theorem State.finish_host : (s.finish r).host = s.host := rfl
@[simp] theorem State.finish_seen : (s.finish r).seen = s.seen := rfl
@[simp] theorem State.finish_drawn : (s.finish r).drawn = s.drawn := rfl

@[simp] theorem State.finishOnly_params : (s.finishOnly st).params = s.params := rfl
@[simp] theorem State.finishOnly_request : (s.finishOnly st).request = none := rfl
@[simp] theorem State.finishOnly_res : (s.finishOnly st).res = Results.only st := rfl
@[simp] theorem State.finishOnly_inp : (s.finishOnly st).inp = s.inp := rfl
@[simp] theorem State.finishOnly_out : (s.finishOnly st).out = s.out := rfl
@[simp] theorem State.finishOnly_outDefined : (s.finishOnly st).outDefined = s.outDefined := rfl
@[simp] theorem State.finishOnly_host : (s.finishOnly st).host = s.host := rfl
@[simp] theorem State.finishOnly_seen : (s.finishOnly st).seen = s.seen := rfl
@[simp] theorem State.finishOnly_drawn : (s.finishOnly st).drawn = s.drawn := rfl

@[simp] theorem State.commitOut_params : (s.commitOut y).params = s.params := rfl
@[simp] theorem State.commitOut_request : (s.commitOut y).request = s.request := rfl
@[simp] theorem State.commitOut_res : (s.commitOut y).res = s.res := rfl
@[simp] theorem State.commitOut_inp : (s.commitOut y).inp = s.inp := rfl
@[simp] theorem State.commitOut_out : (s.commitOut y).out = s.out.writeBytes 0 y := rfl
@[simp] theorem State.commitOut_outDefined : (s.commitOut y).outDefined = y.length := rfl
@[simp] theorem State.commitOut_host : (s.commitOut y).host = s.host := rfl
@[simp] theorem State.commitOut_seen : (s.commitOut y).seen = s.seen := rfl
@[simp] theorem State.commitOut_drawn : (s.commitOut y).drawn = s.drawn := rfl

@[simp] theorem State.afterReset_params : s.afterReset.params = s.params := rfl
@[simp] theorem State.afterReset_request : s.afterReset.request = none := rfl
@[simp] theorem State.afterReset_res : s.afterReset.res = Results.only .ok := rfl
@[simp] theorem State.afterReset_inp : s.afterReset.inp = [] := rfl
@[simp] theorem State.afterReset_out : s.afterReset.out = [] := rfl
@[simp] theorem State.afterReset_outDefined : s.afterReset.outDefined = 0 := rfl
@[simp] theorem State.afterReset_host : s.afterReset.host = s.host := rfl
@[simp] theorem State.afterReset_seen : s.afterReset.seen = s.seen := rfl
@[simp] theorem State.afterReset_drawn : s.afterReset.drawn = s.drawn := rfl

@[simp] theorem State.withRequest_request : (s.withRequest q).request = some q := rfl
@[simp] theorem State.withRequest_host : (s.withRequest q).host = [] := rfl
@[simp] theorem State.withRequest_params : (s.withRequest q).params = s.params := rfl
@[simp] theorem State.withRequest_inp : (s.withRequest q).inp = s.inp := rfl
@[simp] theorem State.withRequest_out : (s.withRequest q).out = s.out := rfl
@[simp] theorem State.withRequest_res : (s.withRequest q).res = s.res := rfl
@[simp] theorem State.withRequest_outDefined : (s.withRequest q).outDefined = s.outDefined := rfl
@[simp] theorem State.withRequest_seen : (s.withRequest q).seen = s.seen := rfl
@[simp] theorem State.withRequest_drawn : (s.withRequest q).drawn = s.drawn := rfl

@[simp] theorem Results.only_status : (Results.only st).status = st.code := rfl
@[simp] theorem Results.only_flags : (Results.only st).flags = 0x00#8 := rfl
@[simp] theorem Results.only_outLen : (Results.only st).outLen = 0 := rfl
@[simp] theorem Results.only_consumed : (Results.only st).consumed = 0 := rfl
@[simp] theorem Results.only_start : (Results.only st).start = 0 := rfl
@[simp] theorem Results.only_endAt : (Results.only st).endAt = 0 := rfl
@[simp] theorem Results.only_size : (Results.only st).size = 0 := rfl

end

/-- Every status has a code below 6 (R171). -/
theorem Status.code_lt (st : Status) : st.code.toNat < 6 := by cases st <;> decide

/-- Different statuses have different codes (R171). -/
theorem Status.code_inj {st st' : Status} (h : st.code = st'.code) : st = st' := by
  revert h; cases st <;> cases st' <;> decide

end Sys2Proof.Machine
end

