-- ==== Sys2Proof/Laws/Operands.lean ====
section
/-! SUPPORT. What the common checks and the window can do (spec/60_exceptions.md R170, spec/20_memory.md R41, R45). -/

namespace Sys2Proof.Machine

variable {s : State} {f e : Nat}

/-- An operation starts exactly when its configuration and its operands are accepted. -/
theorem earlyEnd_eq_none : earlyEnd s f e = none ↔ s.Accepts f e := by
  unfold earlyEnd operandCheck State.Accepts
  split
  · rename_i hok
    split
    · simp [hok]; omega
    · split
      · simp [hok]; omega
      · simp [hok]; omega
  · rename_i hok; simp [hok]

theorem earlyEnd_of_accepts (h : s.Accepts f e) : earlyEnd s f e = none := earlyEnd_eq_none.mpr h

theorem earlyEnd_of_not_ok (h : s.params.ok = false) : earlyEnd s f e = some (.refused .badConfiguration) := by
  simp [earlyEnd, h]

theorem earlyEnd_of_tooLong (hok : s.params.ok = true) (h : s.params.nMax < e) :
    earlyEnd s f e = some (.next (s.finishOnly .inputTooLong)) := by
  simp [earlyEnd, operandCheck, hok, h]

theorem earlyEnd_of_badOffset (hok : s.params.ok = true) (h : e ≤ s.params.nMax) (h' : e < f) :
    earlyEnd s f e = some (.next (s.finishOnly .badOffset)) := by
  simp [earlyEnd, operandCheck, hok, Nat.not_lt.mpr h, h']

/-- Everything a request that ends early can do. -/
theorem earlyEnd_cases {o : Host.Outcome State Fault Refusal} (h : earlyEnd s f e = some o) :
    (s.params.ok = false ∧ o = .refused .badConfiguration) ∨
    (s.params.ok = true ∧ s.params.nMax < e ∧ o = .next (s.finishOnly .inputTooLong)) ∨
    (s.params.ok = true ∧ e ≤ s.params.nMax ∧ e < f ∧ o = .next (s.finishOnly .badOffset)) := by
  cases hok : s.params.ok with
  | false =>
    rw [earlyEnd_of_not_ok hok] at h
    exact .inl ⟨rfl, (Option.some.inj h).symm⟩
  | true =>
    rcases Nat.lt_or_ge s.params.nMax e with h1 | h1
    · rw [earlyEnd_of_tooLong hok h1] at h
      exact .inr (.inl ⟨rfl, h1, (Option.some.inj h).symm⟩)
    · rcases Nat.lt_or_ge e f with h2 | h2
      · rw [earlyEnd_of_badOffset hok h1 h2] at h
        exact .inr (.inr ⟨rfl, h1, h2, (Option.some.inj h).symm⟩)
      · rw [earlyEnd_of_accepts ⟨hok, h1, h2⟩] at h
        cases h

/-- The common checks look at the parameters alone; the state they leave differs where the states differ. -/
theorem earlyEnd_isSome_congr {s' : State} (h : s.params = s'.params) :
    (earlyEnd s f e).isSome = (earlyEnd s' f e).isSome := by
  unfold earlyEnd
  rw [h]
  split <;> simp

/-- A window the host has written is what the operation reads. -/
theorem window_of_holds {x : List Byte} (h : s.HoldsWindow f e x) : s.window f e = x := by
  obtain ⟨h1, h2⟩ := h
  have := Mem.readable_eq s.inp f x h2
  rwa [h1] at this

theorem windowWritten_of_holds {x : List Byte} (h : s.HoldsWindow f e x) : windowWritten x f e = true := by
  simp [windowWritten, windowLen, h.1]

/-- Where the window reads to its end, the host has written all of it. -/
theorem holds_of_windowWritten (h : windowWritten (s.window f e) f e = true) :
    s.HoldsWindow f e (s.window f e) := by
  refine ⟨of_decide_eq_true h, fun j hj => ?_⟩
  exact Mem.readable_get s.inp f (windowLen f e) j hj

theorem window_length_le : (s.window f e).length ≤ e - f := Mem.readable_length_le s.inp f (e - f)

theorem window_get {j : Nat} (h : j < (s.window f e).length) : s.inp.read (f + j) = (s.window f e)[j]? :=
  Mem.readable_get s.inp f (e - f) j h

/-- Where the window reads short, the byte after what was read is not written. -/
theorem window_stop (h : (s.window f e).length < e - f) : s.inp.read (f + (s.window f e).length) = none :=
  Mem.readable_stop s.inp f (e - f) h

theorem windowWritten_eq_false (h : windowWritten (s.window f e) f e = false) : (s.window f e).length < e - f := by
  have h1 : (s.window f e).length ≠ e - f := of_decide_eq_false h
  have h2 := window_length_le (s := s) (f := f) (e := e)
  omega

/-- The window depends on its own bytes alone. -/
theorem window_congr {s' : State} (h : ∀ a, f ≤ a → a < e → s.inp.read a = s'.inp.read a) :
    s.window f e = s'.window f e :=
  Mem.readable_congr _ _ _ _ fun a h1 h2 => h a h1 (by unfold windowLen at h2; omega)

end Sys2Proof.Machine
end

