-- ==== Sys2Proof/Laws/Exec.lean ====
section
/-! SUPPORT. What each operation can do when it answers a next state, said once. -/

namespace Sys2Proof.Machine

variable {s t : State} {f e : Nat}

/-- How an operation answers a next state when a common check fails. -/
def EndedByCheck (s t : State) (f e : Nat) : Prop :=
  (s.params.nMax < e ∧ t = s.finishOnly .inputTooLong) ∨
  (e ≤ s.params.nMax ∧ e < f ∧ t = s.finishOnly .badOffset)

theorem endedByCheck_of_earlyEnd (h : earlyEnd s f e = some (.next t)) : s.params.ok = true ∧ EndedByCheck s t f e := by
  rcases earlyEnd_cases h with ⟨_, h1⟩ | ⟨hok, h1, h2⟩ | ⟨hok, h1, h2, h3⟩
  · cases h1
  · cases h2; exact ⟨hok, .inl ⟨h1, rfl⟩⟩
  · cases h3; exact ⟨hok, .inr ⟨h1, h2, rfl⟩⟩

/-- Everything ENCODE can do when it answers a next state (R104). -/
theorem execEncode_next (h : execEncode f e s = .next t) : s.params.ok = true ∧
    (EndedByCheck s t f e ∨ (s.Accepts f e ∧ s.HoldsWindow f e (s.window f e) ∧
      ((s.params.outCap < (cobsEncode (s.window f e)).length ∧ t = s.finishOnly .capacityExceeded) ∨
       ((cobsEncode (s.window f e)).length ≤ s.params.outCap ∧
        t = (s.commitOut (cobsEncode (s.window f e))).finish
          { Results.only .ok with outLen := (cobsEncode (s.window f e)).length })))) := by
  unfold execEncode at h
  split at h
  · rename_i o ho
    rw [h] at ho
    exact ⟨(endedByCheck_of_earlyEnd ho).1, .inl (endedByCheck_of_earlyEnd ho).2⟩
  · rename_i ha
    have ha := earlyEnd_eq_none.mp ha
    refine ⟨ha.1, .inr ⟨ha, ?_⟩⟩
    simp only at h
    split at h
    · rename_i hw
      refine ⟨holds_of_windowWritten hw, ?_⟩
      split at h
      · rename_i hc; cases h; exact .inl ⟨hc, rfl⟩
      · rename_i hc; cases h; exact .inr ⟨by omega, rfl⟩
    · cases h

/-- Everything ENC_SIZE can do when it answers a next state (R105). -/
theorem execEncSize_next (h : execEncSize f e s = .next t) : s.params.ok = true ∧
    (EndedByCheck s t f e ∨ (s.Accepts f e ∧ s.HoldsWindow f e (s.window f e) ∧
      t = s.finish { Results.only .ok with size := encSize (s.window f e) })) := by
  unfold execEncSize at h
  split at h
  · rename_i o ho
    rw [h] at ho
    exact ⟨(endedByCheck_of_earlyEnd ho).1, .inl (endedByCheck_of_earlyEnd ho).2⟩
  · rename_i ha
    have ha := earlyEnd_eq_none.mp ha
    simp only at h
    split at h
    · rename_i hw; cases h; exact ⟨ha.1, .inr ⟨ha, holds_of_windowWritten hw, rfl⟩⟩
    · cases h

/-- Everything ENC_BOUND can do when it answers a next state (R106). -/
theorem execEncBound_next (h : execEncBound f e s = .next t) : s.params.ok = true ∧
    (EndedByCheck s t f e ∨ (s.Accepts f e ∧ t = s.finish { Results.only .ok with size := encBound (e - f) })) := by
  unfold execEncBound at h
  split at h
  · rename_i o ho
    rw [h] at ho
    exact ⟨(endedByCheck_of_earlyEnd ho).1, .inl (endedByCheck_of_earlyEnd ho).2⟩
  · rename_i ha
    have ha := earlyEnd_eq_none.mp ha
    cases h; exact ⟨ha.1, .inr ⟨ha, rfl⟩⟩

/-- Everything DECODE can do when it answers a next state (R135). -/
theorem execDecode_next (h : execDecode f e s = .next t) : s.params.ok = true ∧
    (EndedByCheck s t f e ∨ (s.Accepts f e ∧
      ((cobsDecode (s.window f e)).term = true ∨ s.HoldsWindow f e (s.window f e)) ∧
      ((s.params.outCap < (cobsDecode (s.window f e)).y.length ∧ t = s.finishOnly .capacityExceeded) ∨
       ((cobsDecode (s.window f e)).y.length ≤ s.params.outCap ∧
        t = (s.commitOut (cobsDecode (s.window f e)).y).finish
          { Results.only .ok with
            outLen := (cobsDecode (s.window f e)).y.length
            consumed := (cobsDecode (s.window f e)).used
            flags := decodeFlags (cobsDecode (s.window f e)).term (cobsDecode (s.window f e)).short })))) := by
  unfold execDecode at h
  split at h
  · rename_i o ho
    rw [h] at ho
    exact ⟨(endedByCheck_of_earlyEnd ho).1, .inl (endedByCheck_of_earlyEnd ho).2⟩
  · rename_i ha
    have ha := earlyEnd_eq_none.mp ha
    refine ⟨ha.1, .inr ⟨ha, ?_⟩⟩
    simp only at h
    split at h
    · rename_i hw
      rw [Bool.or_eq_true] at hw
      refine ⟨hw.imp_right holds_of_windowWritten, ?_⟩
      split at h
      · rename_i hc; cases h; exact .inl ⟨hc, rfl⟩
      · rename_i hc; cases h; exact .inr ⟨by omega, rfl⟩
    · cases h

/-- Everything FIND_FRAME can do when it answers a next state (R150). -/
theorem execFindFrame_next (h : execFindFrame f e s = .next t) : s.params.ok = true ∧
    (EndedByCheck s t f e ∨ (s.Accepts f e ∧
      ((∃ k, firstZero (s.window f e) = some k ∧
          t = s.finish { Results.only .ok with start := f, endAt := f + k + 1 }) ∨
       (firstZero (s.window f e) = none ∧ s.HoldsWindow f e (s.window f e) ∧ t = s.finishOnly .notFound)))) := by
  unfold execFindFrame at h
  split at h
  · rename_i o ho
    rw [h] at ho
    exact ⟨(endedByCheck_of_earlyEnd ho).1, .inl (endedByCheck_of_earlyEnd ho).2⟩
  · rename_i ha
    have ha := earlyEnd_eq_none.mp ha
    refine ⟨ha.1, .inr ⟨ha, ?_⟩⟩
    simp only at h
    split at h
    · rename_i k hk; cases h; exact .inl ⟨k, hk, rfl⟩
    · rename_i hk
      split at h
      · rename_i hw; cases h; exact .inr ⟨hk, holds_of_windowWritten hw, rfl⟩
      · cases h

end Sys2Proof.Machine
end

