-- ==== Sys2Proof/Laws/PerInstr.lean ====
section
/-! SUPPORT. What holds of every operation's words, one lemma per constructor. -/

namespace Sys2Proof.Laws.Encoding

/-- The words of an operation: a `CMD` whose reserved bits are zero and whose `OP` is one of the five values of the table
(spec/30_encoding.md R61), and both operands as given (R60). -/
def Statement (i : Instr) : Prop :=
  rsvField (encodeRequest i).cmd = 0#29 ∧ (opField (encodeRequest i).cmd).toNat < 5 ∧
  (encodeRequest i).fromOff = i.fromOff ∧ (encodeRequest i).inEnd = i.inEnd

theorem encode (f e : Nat) : Statement (.encode f e) :=
  ⟨show rsvField 0x00000000#32 = 0#29 by decide, show (opField 0x00000000#32).toNat < 5 by decide, rfl, rfl⟩
theorem decode (f e : Nat) : Statement (.decode f e) :=
  ⟨show rsvField 0x00000001#32 = 0#29 by decide, show (opField 0x00000001#32).toNat < 5 by decide, rfl, rfl⟩
theorem findFrame (f e : Nat) : Statement (.findFrame f e) :=
  ⟨show rsvField 0x00000002#32 = 0#29 by decide, show (opField 0x00000002#32).toNat < 5 by decide, rfl, rfl⟩
theorem encSize (f e : Nat) : Statement (.encSize f e) :=
  ⟨show rsvField 0x00000003#32 = 0#29 by decide, show (opField 0x00000003#32).toNat < 5 by decide, rfl, rfl⟩
theorem encBound (f e : Nat) : Statement (.encBound f e) :=
  ⟨show rsvField 0x00000004#32 = 0#29 by decide, show (opField 0x00000004#32).toNat < 5 by decide, rfl, rfl⟩

end Sys2Proof.Laws.Encoding
end

