-- ==== Sys2Proof/Tests/Slice0.lean ====
section
/-! SUPPORT. Small tests: words written out from the spec's encodings, vectors of spec/95_test_vectors.md on one step each, and
for every statement with hypotheses a state and operands that meet them. -/

open Sys2Proof Sys2Proof.Machine

namespace Sys2Proof.Tests

/-! ## Helpers -/

/-- The listings' block after reset, with `xs` written into IN from address 0 on. -/
def holding (xs : List Byte) : State := { State.reset with inp := Mem.writeBytes [] 0 xs }

/-- A block with buffers of `n` and `cap` bytes after reset, with `xs` written into IN from address 0 on. -/
def sized (n cap : Nat) (xs : List Byte) : State :=
  { State.resetWith ⟨n, cap, 16⟩ with inp := Mem.writeBytes [] 0 xs }

/-- The state with a request outstanding. -/
def asking (s : State) (cmd : BitVec 32) (f e : Nat) : State := { s with request := some ⟨cmd, f, e⟩ }

/-- The result registers and the bytes of OUT after an answer that is a next state. -/
def resultsOf : Host.Outcome State Fault Refusal → Option (Results × Mem)
  | .next t => some (t.res, t.out)
  | _ => none

/-- The status after an answer that is a next state. -/
def statusOf (o : Host.Outcome State Fault Refusal) : Option (BitVec 8) := (resultsOf o).map fun r => r.1.status

/-- Whether an answer is the fault `r`. -/
def faultsWith (r : Fault) : Host.Outcome State Fault Refusal → Bool
  | .fault r' => r = r'
  | _ => false

/-- Whether an answer is the refusal `r`. -/
def refusedWith (r : Refusal) : Host.Outcome State Fault Refusal → Bool
  | .refused r' => r = r'
  | _ => false

/-! ## Well-formedness: an ill-formed term for each check, which the check refuses -/

theorem test_illformed_from : Instr.wellFormed ⟨64, 64, 16⟩ (.encode 0x10000 0) = false := by decide
theorem test_illformed_inEnd : Instr.wellFormed ⟨64, 64, 16⟩ (.findFrame 0 0x10000) = false := by decide
theorem test_wellformed_top : Instr.wellFormed ⟨64, 64, 16⟩ (.decode 0xFFFF 0xFFFF) = true := by decide
theorem test_request_too_wide : Request.fits ⟨64, 64, 16⟩ ⟨0xFFFFFFFF#32, 0x10000, 0⟩ = false := by decide
/-- R6: `2^LEN_W` must exceed `N_MAX + 2 + floor(N_MAX / 254)`; with `LEN_W = 6` the largest `N_MAX` is 61. -/
theorem test_config_bound : Params.ok ⟨61, 0, 6⟩ = true ∧ Params.ok ⟨62, 0, 6⟩ = false := by decide

/-! ## Decoding: each operation's word from the table of R61, bit by bit -/

theorem test_word_encode : decodeRequest ⟨0b00000000000000000000000000000000#32, 2, 6⟩ = .ok (.encode 2 6) := by rfl
theorem test_word_decode : decodeRequest ⟨0b00000000000000000000000000000001#32, 8, 14⟩ = .ok (.decode 8 14) := by rfl
theorem test_word_findFrame : decodeRequest ⟨0b00000000000000000000000000000010#32, 3, 6⟩ = .ok (.findFrame 3 6) := by rfl
theorem test_word_encSize : decodeRequest ⟨0b00000000000000000000000000000011#32, 0, 254⟩ = .ok (.encSize 0 254) := by rfl
theorem test_word_encBound : decodeRequest ⟨0b00000000000000000000000000000100#32, 8, 8⟩ = .ok (.encBound 8 8) := by rfl
/-- ST1, ST3, ST4 of spec/95_test_vectors.md: reserved command words. -/
theorem test_word_reserved :
    decodeRequest ⟨0x00000005#32, 0, 0⟩ = .error .reservedOp ∧
    decodeRequest ⟨0x00000008#32, 0, 4⟩ = .error .reservedBits ∧
    decodeRequest ⟨0x80000001#32, 0, 4⟩ = .error .reservedBits := by exact ⟨rfl, rfl, rfl⟩
theorem test_table_word :
    decodeTableWord 32 2 = some (.findFrame 0 0) ∧ decodeTableWord 32 5 = none ∧ decodeTableWord 32 0x80000000 = none := by
  decide

/-! ## The written form (R64) -/

/-- `FIND_FRAME 3, 6`, the example of R64. -/
theorem test_read_request :
    readLine 0 0 ['F', 'I', 'N', 'D', '_', 'F', 'R', 'A', 'M', 'E', ' ', '3', ',', ' ', '6'] =
      some [.issue ⟨0x00000002#32, 3, 6⟩, .wait] := by decide
/-- `IN[5..] := 00`, `read OUT[0..4)` and `<CMD=0x00000008>` of programs P2 and P5. -/
theorem test_read_host_lines :
    readLine 0 0 ['I', 'N', '[', '5', '.', '.', ']', ' ', ':', '=', ' ', '0', '0'] = some [.writeIn 5 [0x00#8]] ∧
    readLine 0 0 ['r', 'e', 'a', 'd', ' ', 'O', 'U', 'T', '[', '0', '.', '.', '4', ')'] = some [.readOut 0 4] ∧
    readLine 0 4 ['<', 'C', 'M', 'D', '=', '0', 'x', '0', '0', '0', '0', '0', '0', '0', '8', '>'] =
      some [.issue ⟨0x00000008#32, 0, 4⟩, .wait] := by decide

/-! ## The operations, one step each -/

/-- ENC22 (with ENC4's output): only `IN[2..6)` is read. -/
theorem test_encode_window :
    resultsOf (step (asking (holding [0xAA, 0xBB, 0x11, 0x22, 0x00, 0x33]) 0x00000000#32 2 6)) =
      some (⟨0, 0, 6, 0, 0, 0, 0⟩, [(0, 0x03), (1, 0x11), (2, 0x22), (3, 0x02), (4, 0x33), (5, 0x00)]) := by decide
/-- ENC20: `OUT_CAP = 5` is one byte too small. -/
theorem test_encode_capacity :
    resultsOf (step (asking (sized 64 5 [0x11, 0x22, 0x00, 0x33]) 0x00000000#32 0 4)) =
      some (⟨0x02, 0, 0, 0, 0, 0, 0⟩, []) := by decide
/-- DEC10: an implicit zero, then input exhausted inside a block. -/
theorem test_decode_short :
    resultsOf (step (asking (holding [0x02, 0x11, 0x03, 0x22]) 0x00000001#32 0 4)) =
      some (⟨0, 0x02, 3, 4, 0, 0, 0⟩, [(0, 0x11), (1, 0x00), (2, 0x22)]) := by decide
/-- DEC5: a zero in a literal position stops as a terminator would; the byte after it was never written and is not read. -/
theorem test_decode_zero_in_literals :
    resultsOf (step (asking (holding [0x05, 0x11, 0x22, 0x00]) 0x00000001#32 0 5)) =
      some (⟨0, 0x03, 2, 4, 0, 0, 0⟩, [(0, 0x11), (1, 0x22)]) := by decide
/-- FND5: the second frame. -/
theorem test_findFrame_second :
    resultsOf (step (asking (holding [0x02, 0x11, 0x00, 0x01, 0x00]) 0x00000002#32 3 5)) =
      some (⟨0, 0, 0, 0, 3, 5, 0⟩, []) := by decide
/-- FND6: `FROM = IN_END` is legal and finds nothing. -/
theorem test_findFrame_empty_window :
    resultsOf (step (asking (holding [0x02, 0x11, 0x00, 0x01, 0x00]) 0x00000002#32 5 5)) =
      some (⟨0x01, 0, 0, 0, 0, 0, 0⟩, []) := by decide
/-- SZ2: five zero bytes. -/
theorem test_encSize_zeros :
    resultsOf (step (asking (holding [0, 0, 0, 0, 0]) 0x00000003#32 0 5)) = some (⟨0, 0, 0, 0, 0, 0, 7⟩, []) := by decide
/-- An ENC_SIZE that would read a byte the host never wrote (R45). -/
theorem test_encSize_uninit : faultsWith .uninitRead (step (asking (holding [0, 0]) 0x00000003#32 0 3)) = true := by decide
/-- BND6, with nothing written to IN: `n = 254` gives 257. -/
theorem test_encBound_254 :
    resultsOf (step (asking (sized 300 0 []) 0x00000004#32 0 254)) = some (⟨0, 0, 0, 0, 0, 0, 257⟩, []) := by decide
/-- ST8: ENC_BOUND runs the common checks too. -/
theorem test_encBound_badOffset : statusOf (step (asking (holding []) 0x00000004#32 9 8)) = some 0x04#8 := by decide
/-- ST2, ST5, ST6: the order of the checks, with `N_MAX = 64`. -/
theorem test_status_priority :
    statusOf (step (asking (holding []) 0x00000007#32 5 65)) = some 0x05#8 ∧
    statusOf (step (asking (holding []) 0x00000001#32 5 65)) = some 0x03#8 ∧
    statusOf (step (asking (holding []) 0x00000002#32 70 65)) = some 0x03#8 := by decide

/-- ENC10: a full block is followed by the final block `[0x01]` (spec/92_eei_decisions.md D19). -/
theorem test_cobsEncode_full_block :
    cobsEncode (List.replicate 254 0x41#8) = 0xFF#8 :: (List.replicate 254 0x41#8 ++ [0x01#8, 0x00#8]) := by
  decide +kernel
/-- DEC21 and DEC22 in small: no implicit zero after a full block. -/
theorem test_cobsDecode_full_block :
    cobsDecode (0xFF#8 :: (List.replicate 254 0x41#8 ++ [0x02#8, 0x33#8, 0x00#8])) =
      ⟨List.replicate 254 0x41#8 ++ [0x33#8], true, false, 258⟩ := by decide +kernel

/-! ## The host -/

/-- A read of OUT after reset draws free bytes (R45). -/
theorem test_read_unspecified_out :
    hostAct (.readOut 3 2) State.reset =
      .next { State.reset with seen := [.out 3 [Config.freeByte 0, Config.freeByte 1]], drawn := 2 } := by rfl
/-- A second request while one is outstanding has no move (R194). -/
theorem test_overlap :
    refusedWith .noMove (hostAct (.issue ⟨0x00000002#32, 0, 0⟩) (asking State.reset 0x00000000#32 0 0)) = true := by decide
/-- A reset during a request abandons it and leaves OUT unknown (R191). -/
theorem test_reset_during_request :
    hostAct (.reset) (asking { holding [1] with out := [(0, 7)] } 0x00000000#32 0 1) = .next State.reset := by rfl
/-- The word of FIND_FRAME as the first request after reset: an empty window, `NOT_FOUND`. -/
theorem test_first_request : statusOf (step (State.reset.withFetchWord 32 2)) = some 0x01#8 := by decide

/-! ## Witnesses: the hypotheses of each statement can be met -/

theorem reset_inv_config : State.reset.params.ok = true := by decide

theorem witness_StepRunsTheRequest :
    (asking State.reset 1#32 0 0).request = some ⟨1#32, 0, 0⟩ ∧ decodeRequest ⟨1#32, 0, 0⟩ = .ok (.decode 0 0) ∧
    (asking State.reset 1#32 0 0).host = [] ∧
    (asking { State.reset with host := [.wait, .reset] } 1#32 0 0).request = some ⟨1#32, 0, 0⟩ ∧
    (asking { State.reset with host := [.wait, .reset] } 1#32 0 0).host = [.wait, .reset] :=
  ⟨rfl, rfl, rfl, rfl, rfl⟩
theorem witness_StepPerformsTheHostsMove :
    State.reset.params.ok = true ∧ { State.reset with host := [.reset] }.host = [.reset] ∧
    State.reset.host = [] ∧ State.reset.request = none := by decide
/-- `IN_END = N_MAX + 1`, then `FROM = IN_END + 1 = N_MAX + 1`: the values where the clauses meet. -/
theorem witness_CommonChecksInOrder :
    (holding []).params.ok = true ∧ (asking (holding []) 1#32 0 65).host = [] ∧
    (asking (holding []) 5#32 0 0).request = some ⟨5#32, 0, 0⟩ ∧
    (∀ i, decodeRequest ⟨5#32, 0, 0⟩ ≠ .ok i) ∧
    decodeRequest ⟨1#32, 0, 65⟩ = .ok (.decode 0 65) ∧ 65 > (holding []).params.nMax ∧
    64 ≤ (holding []).params.nMax ∧ 65 > 64 :=
  ⟨by decide, rfl, rfl, (fun i h => nomatch (show Except.error DecodeReject.reservedOp = Except.ok i from h)),
    rfl, by decide, by decide, by decide⟩
/-- The boundary words of both reasons: `OP` = 5 and 7, bit 3, bit 31. -/
theorem witness_ReservedCmdPerformsNothing :
    5 ≤ (opField 5#32).toNat ∧ 5 ≤ (opField 7#32).toNat ∧ rsvField 8#32 ≠ 0#29 ∧ rsvField 0x80000000#32 ≠ 0#29 ∧
    (asking State.reset 5#32 0 0).host = [] ∧ State.reset.params.ok = true := by decide
/-- An answer of each status that an operation can finish with. -/
theorem witness_StatusCodesAndTheirCauses :
    statusOf (exec (.encode 0 65) State.reset) = some 0x03#8 ∧ statusOf (exec (.encode 65 64) State.reset) = some 0x04#8 ∧
    statusOf (exec (.findFrame 0 0) State.reset) = some 0x01#8 ∧
    statusOf (exec (.encode 0 0) (sized 0 1 [])) = some 0x02#8 ∧
    statusOf (exec (.decode 0 2) (sized 2 0 [2, 1])) = some 0x02#8 ∧
    statusOf (exec (.encBound 0 64) State.reset) = some 0x00#8 := by decide
theorem witness_StatusPriority :
    (asking (holding [0x11]) 0#32 0 1).params.ok = true ∧ (asking (holding [0x11]) 0#32 0 1).host = [] ∧
    (asking (holding [0x11]) 0#32 0 1).request = some ⟨0#32, 0, 1⟩ ∧
    (asking (holding [0x11]) 0#32 0 1).HoldsWindow 0 1 [0x11] ∧
    (asking State.reset 2#32 70 65).HoldsWindow 70 65 [] ∧ (asking State.reset 2#32 70 65).host = [] ∧
    (asking State.reset 2#32 70 65).request = some ⟨2#32, 70, 65⟩ ∧ (asking State.reset 2#32 70 65).params.ok = true :=
  ⟨by decide, rfl, rfl, ⟨rfl, by decide⟩, ⟨rfl, by decide⟩, rfl, rfl, by decide⟩
theorem witness_BadConfigurationIsRefused :
    ¬ ((State.resetWith ⟨62, 0, 6⟩).params.nMax + 2 + (State.resetWith ⟨62, 0, 6⟩).params.nMax / 254 <
      2 ^ (State.resetWith ⟨62, 0, 6⟩).params.lenW) := by decide

/-- A window that reaches to `N_MAX`, and the empty window at `N_MAX`. -/
theorem witness_Accepts : (sized 4 8 [1, 2, 0, 3]).Accepts 0 4 ∧ (sized 4 8 [1, 2, 0, 3]).Accepts 4 4 :=
  ⟨⟨by decide, by decide, by decide⟩, ⟨by decide, by decide, by decide⟩⟩
theorem witness_HoldsWindow :
    (sized 4 8 [1, 2, 0, 3]).HoldsWindow 0 4 [1, 2, 0, 3] ∧ (sized 4 8 [1, 2, 0, 3]).HoldsWindow 4 4 [] :=
  ⟨⟨rfl, by decide⟩, ⟨rfl, by decide⟩⟩
/-- UninitReadFaultsExactly, EncBoundGivesTheBound: their one hypothesis is `Accepts`; an unwritten byte, an unwritten byte
after a zero, and none. -/
theorem witness_UninitReadFaultsExactly :
    4 ≤ (sized 4 8 []).params.nMax ∧ faultsWith .uninitRead (exec (.decode 0 4) (sized 4 8 [2, 1])) = true ∧
    faultsWith .uninitRead (exec (.decode 0 4) (sized 4 8 [2, 1, 0])) = false ∧
    faultsWith .uninitRead (exec (.encode 0 4) (sized 4 8 [2, 1, 0])) = true ∧
    faultsWith .uninitRead (exec (.findFrame 0 4) (sized 4 8 [2, 1])) = true := by decide
/-- EncodeWritesTheFrame, EncSizeGivesTheExactSize, HostReadsTheEncodedFrame: a window that does not fit OUT, and one that
fits exactly. -/
theorem witness_EncodeWritesTheFrame :
    ((sized 4 5 [1, 2, 0, 3]).Accepts 0 4 ∧ (sized 4 5 [1, 2, 0, 3]).HoldsWindow 0 4 [1, 2, 0, 3] ∧
      (sized 4 5 [1, 2, 0, 3]).params.outCap < (cobsEncode [1, 2, 0, 3]).length) ∧
    ((sized 4 6 [1, 2, 0, 3]).Accepts 0 4 ∧ (sized 4 6 [1, 2, 0, 3]).HoldsWindow 0 4 [1, 2, 0, 3] ∧
      (cobsEncode [1, 2, 0, 3]).length ≤ (sized 4 6 [1, 2, 0, 3]).params.outCap) :=
  ⟨⟨⟨by decide, by decide, by decide⟩, ⟨rfl, by decide⟩, by decide⟩, ⟨⟨by decide, by decide, by decide⟩, ⟨rfl, by decide⟩, by decide⟩⟩
/-- RunsCommonChecks: both its clauses, at the values where they meet. -/
theorem witness_RunsCommonChecks :
    (sized 4 8 []).params.ok = true ∧ (sized 4 8 []).params.nMax < (Instr.encode 0 5).inEnd ∧
    (Instr.encode 5 4).inEnd ≤ (sized 4 8 []).params.nMax ∧ (Instr.encode 5 4).inEnd < (Instr.encode 5 4).fromOff := by
  decide
/-- DecodeWritesTheMessage: a window that stops at a zero before its unwritten end, one that is exhausted, and one that does not
fit OUT. -/
theorem witness_DecodeWritesTheMessage :
    ((sized 4 1 [2, 1, 0]).Accepts 0 4 ∧ (sized 4 1 [2, 1, 0]).InputAt 0 [2, 1, 0] ∧ [2#8, 1#8, 0#8].length ≤ 4 - 0 ∧
      (cobsDecode [2, 1, 0]).term = true ∧ (cobsDecode [2, 1, 0]).y.length ≤ (sized 4 1 [2, 1, 0]).params.outCap) ∧
    ((sized 4 0 [2, 1, 0]).Accepts 0 2 ∧ (sized 4 0 [2, 1, 0]).InputAt 0 [2, 1] ∧ [2#8, 1#8].length = 2 - 0 ∧
      (sized 4 0 [2, 1, 0]).params.outCap < (cobsDecode [2, 1]).y.length) :=
  ⟨⟨⟨by decide, by decide, by decide⟩, by unfold State.InputAt; decide, by decide, by decide, by decide⟩,
    ⟨⟨by decide, by decide, by decide⟩, by unfold State.InputAt; decide, rfl, by decide⟩⟩
/-- FindFrameFindsTheFirstZero: the first zero as the window's last byte, and a window without a zero. -/
theorem witness_FindFrameFindsTheFirstZero :
    (sized 3 0 [2, 1, 0]).Accepts 0 3 ∧ (sized 3 0 [2, 1, 0]).Accepts 0 2 ∧
    (sized 3 0 [2, 1, 0]).inp.read 2 = some zeroByte ∧
    (∀ a, 0 ≤ a → a < 2 → ∃ b, (sized 3 0 [2, 1, 0]).inp.read a = some b ∧ b ≠ zeroByte) := by
  refine ⟨⟨by decide, by decide, by decide⟩, ⟨by decide, by decide, by decide⟩, by decide, fun a _ h => ?_⟩
  match a, h with
  | 0, _ => exact ⟨2, by decide, by decide⟩
  | 1, _ => exact ⟨1, by decide, by decide⟩
/-- OperationsLeaveTheRest, OnlyTheResultIsWritten, RequestIsRepeatable, ReadsOnlyWhatItConsumes, NoZeroInTheBody,
OriginalEstimateUndercounts, DecodeFlagsMeaning, DecodeStopPoint, MalformedInputDecodes, FrameRange, FindFrameAgreesWithDecode,
SizeBeforeSending, ScannedRange: each operation answers a next state with status OK. -/
theorem witness_each_operation_ok :
    statusOf (exec (.encode 0 3) (sized 3 8 [2, 1, 0])) = some 0x00#8 ∧
    statusOf (exec (.decode 0 3) (sized 3 8 [2, 1, 0])) = some 0x00#8 ∧
    statusOf (exec (.findFrame 0 3) (sized 3 8 [2, 1, 0])) = some 0x00#8 ∧
    statusOf (exec (.encSize 0 3) (sized 3 8 [2, 1, 0])) = some 0x00#8 ∧
    statusOf (exec (.encBound 0 3) (sized 3 8 [2, 1, 0])) = some 0x00#8 := by decide
/-- DecodedLength: a block whose `OUT_CAP` is `N_MAX - 1`. -/
theorem witness_DecodedLength :
    (sized 3 2 [2, 1, 0]).params.nMax - 1 ≤ (sized 3 2 [2, 1, 0]).params.outCap ∧
    statusOf (exec (.decode 0 3) (sized 3 2 [2, 1, 0])) = some 0x00#8 := by decide
/-- ScannedRange: a window without a zero byte. -/
theorem witness_ScannedRange :
    (sized 4 8 [1, 2, 0, 3]).Accepts 0 2 ∧ (sized 4 8 [1, 2, 0, 3]).HoldsWindow 0 2 [1, 2] ∧ zeroByte ∉ [1#8, 2#8] :=
  ⟨⟨by decide, by decide, by decide⟩, ⟨rfl, by decide⟩, by decide⟩
/-- ScannedRange, FindFrameAgreesWithDecode: a longer window than the frame's. -/
theorem witness_FindFrameAgreesWithDecode :
    (resultsOf (exec (.findFrame 0 4) (sized 5 8 [2, 1, 0, 7]))).map (fun r => (r.1.status, r.1.endAt)) = some (0x00#8, 3) ∧
    3 ≤ 5 ∧ 5 ≤ (sized 5 8 [2, 1, 0, 7]).params.nMax := by decide
/-- CodecIsStateless: two states that differ in everything but the parameters, the window and, in its second clause, the
request. -/
theorem witness_CodecIsStateless :
    (asking (holding [1, 2]) 1#32 0 2).request = some ⟨1#32, 0, 2⟩ ∧
    (asking { holding [1, 2, 3] with out := [(0, 9)] } 1#32 0 2).request = some ⟨1#32, 0, 2⟩ ∧
    (asking (holding [1, 2]) 1#32 0 2).host = [] ∧ (asking { holding [1, 2, 3] with out := [(0, 9)] } 1#32 0 2).host = [] ∧
    (holding [1, 2]).params = { holding [1, 2, 3] with out := [(0, 9)], res := Results.only .notFound }.params ∧
    ∀ a, 0 ≤ a → a < 2 → (holding [1, 2]).inp.read a = (holding [1, 2, 3]).inp.read a :=
  ⟨rfl, rfl, rfl, rfl, rfl, fun a _ h => match a, h with | 0, _ => rfl | 1, _ => rfl⟩
theorem witness_BoundIsTight : zeroByte ∉ [0x11#8] ∧ 508 % 254 = 0 ∧ 253 % 254 ≠ 0 := by decide
/-- OriginalEstimateUndercounts: a segment of 254 bytes. -/
theorem witness_OriginalEstimateUndercounts :
    ∃ s ∈ segments (List.replicate 254 0x41#8), 254 ≤ s.length :=
  ⟨List.replicate 254 0x41#8, by decide +kernel, by decide +kernel⟩
/-- BlockCounterNeverWraps: a counter at 0xFE, one literal before the block ends, and one below. -/
theorem witness_BlockCounterNeverWraps :
    ((List.replicate 253 0x41#8).foldl encStep encStart).c.toNat = 0xFE ∧
    ([0x41#8].foldl encStep encStart).c.toNat < 0xFE := by decide +kernel

/-- A canonical frame of two blocks: `03 11 22 02 33 00`. -/
theorem witness_FrameOf :
    FrameOf [⟨0x03, [0x11, 0x22]⟩, ⟨0x02, [0x33]⟩] [0x03, 0x11, 0x22, 0x02, 0x33, 0x00] ∧
    lastCode [⟨0x03, [0x11, 0x22]⟩, ⟨0x02, [0x33]⟩] ≠ fullCode :=
  ⟨⟨by simp, by decide, by decide⟩, by decide⟩
/-- CanonicalFramesAreTheEncoded: a final run of exactly 254 bytes after a zero, and a frame that ends in a full block. -/
theorem witness_CanonicalFramesAreTheEncoded :
    ([0x00#8].getLast? = some zeroByte ∧ zeroByte ∉ List.replicate 254 0x41#8 ∧
      (List.replicate 254 0x41#8).length = 254 * 1) ∧
    FrameOf [⟨fullCode, List.replicate 254 0x41#8⟩] (fullCode :: List.replicate 254 0x41#8 ++ [0x00#8]) ∧
    lastCode [⟨fullCode, List.replicate 254 0x41#8⟩] = fullCode :=
  ⟨⟨rfl, by decide +kernel, by decide +kernel⟩, ⟨by decide +kernel, by decide +kernel, by decide +kernel⟩, rfl⟩
/-- MalformedInputDecodes, DecodeFlagsMeaning: a block that declares four literals and has two, and one that is one short. -/
theorem witness_MalformedInputDecodes :
    (∀ b ∈ [(⟨0x02, [0x33]⟩ : Block)], b.ok = true) ∧ 0x05#8 ≠ zeroByte ∧ zeroByte ∉ [0x11#8, 0x22#8] ∧
    [0x11#8, 0x22#8].length < (0x05#8).toNat - 1 ∧ [0x11#8, 0x22#8].length < (0x04#8).toNat - 1 := by decide
theorem witness_EmptyMessageIsOk :
    (holding [0x00]).Accepts 0 1 ∧ (holding [0x00]).HoldsWindow 0 1 [0x00] ∧
    (holding [0x01, 0x00]).Accepts 0 2 ∧ (holding [0x01, 0x00]).HoldsWindow 0 2 [0x01, 0x00] :=
  ⟨⟨by decide, by decide, by decide⟩, ⟨rfl, by decide⟩, ⟨by decide, by decide, by decide⟩, ⟨rfl, by decide⟩⟩
theorem witness_FrameLengthIsFound :
    (holding [0x02, 0x33, 0x00, 0x07]).Accepts 0 4 ∧
    (holding [0x02, 0x33, 0x00, 0x07]).HoldsWindow 0 4 ([0x02, 0x33, 0x00] ++ [0x07]) ∧
    WellFormedFrame [0x02, 0x33, 0x00] :=
  ⟨⟨by decide, by decide, by decide⟩, ⟨rfl, by decide⟩, [⟨0x02, [0x33]⟩], by simp, by decide, by decide⟩
/-- AwaitedChecksEndTheRequest: an awaited reserved `CMD`, `IN_END = N_MAX + 1`, `FROM = IN_END + 1 = N_MAX + 1`, and a
reserved `CMD` with the widest operands that the host issues and awaits. -/
theorem witness_AwaitedChecksEndTheRequest :
    State.reset.params.ok = true ∧
    (asking { State.reset with host := [.wait, .reset] } 5#32 0 0).request = some ⟨5#32, 0, 0⟩ ∧
    (asking { State.reset with host := [.wait, .reset] } 5#32 0 0).host = .wait :: [.reset] ∧
    (∀ i, decodeRequest ⟨5#32, 0, 0⟩ ≠ .ok i) ∧
    decodeRequest ⟨1#32, 0, 65⟩ = .ok (.decode 0 65) ∧ 65 > State.reset.params.nMax ∧
    decodeRequest ⟨1#32, 65, 64⟩ = .ok (.decode 65 64) ∧ 64 ≤ State.reset.params.nMax ∧ 65 > 64 ∧
    State.reset.request = none ∧ Request.fits State.reset.params ⟨0x80000000#32, 65535, 65535⟩ = true ∧
    rsvField 0x80000000#32 ≠ 0#29 ∧ 5 ≤ (opField 5#32).toNat ∧
    { State.reset with host := [.issue ⟨0x80000000#32, 65535, 65535⟩, .wait] }.host =
      .issue ⟨0x80000000#32, 65535, 65535⟩ :: .wait :: [] :=
  ⟨by decide, rfl, rfl, (fun i h => nomatch (show Except.error DecodeReject.reservedOp = Except.ok i from h)),
    rfl, by decide, rfl, by decide, by decide, rfl, by decide, by decide, by decide, rfl⟩
/-- HostReadsTheDecodedMessage: a window that goes on, unwritten, after its terminator and whose message fills OUT, and one
that is exhausted inside a block. -/
theorem witness_HostReadsTheDecodedMessage :
    ((sized 4 1 [2, 1, 0]).Accepts 0 4 ∧ (sized 4 1 [2, 1, 0]).InputAt 0 [2, 1, 0] ∧ [2#8, 1#8, 0#8].length ≤ 4 - 0 ∧
      (cobsDecode [2, 1, 0]).term = true ∧ (cobsDecode [2, 1, 0]).y.length ≤ (sized 4 1 [2, 1, 0]).params.outCap) ∧
    ((sized 2 1 [3, 1]).Accepts 0 2 ∧ (sized 2 1 [3, 1]).InputAt 0 [3, 1] ∧ [3#8, 1#8].length ≤ 2 - 0 ∧
      [3#8, 1#8].length = 2 - 0 ∧ (cobsDecode [3, 1]).y.length ≤ (sized 2 1 [3, 1]).params.outCap) :=
  ⟨⟨⟨by decide, by decide, by decide⟩, by unfold State.InputAt; decide, by decide, by decide, by decide⟩,
    ⟨⟨by decide, by decide, by decide⟩, by unfold State.InputAt; decide, by decide, rfl, by decide⟩⟩
/-- ResumptionAfterNotFound: `NOT_FOUND`, then bytes up to `N_MAX`, with a zero and without one. -/
theorem witness_ResumptionAfterNotFound :
    statusOf (exec (.findFrame 0 2) (sized 4 8 [3, 1])) = some 0x01#8 ∧ 2 + [7#8, 0#8].length ≤ (sized 4 8 [3, 1]).params.nMax ∧
    [7#8, 0#8] = [7#8] ++ zeroByte :: [] ∧ zeroByte ∉ [7#8] := by decide
theorem witness_WalkingFramesCoversThem :
    (holding [2, 1, 0, 1, 0, 3]).Accepts 0 6 ∧ (holding [2, 1, 0, 1, 0, 3]).HoldsWindow 0 6 [2, 1, 0, 1, 0, 3] ∧ [2#8, 1#8, 0#8, 1#8, 0#8, 3#8].length < 7 ∧
    walkFrames 6 7 0 (holding [2, 1, 0, 1, 0, 3]) = [(0, 3), (3, 5)] :=
  ⟨⟨by decide, by decide, by decide⟩, ⟨rfl, by decide⟩, by decide, by decide⟩
/-- HostWritesIn, HostReadsOut, NoAddressOutsideTheBuffers, IssueNeedsFittingOperands, ResultRegistersAreReadOnly: no request is
outstanding, at the last address of each buffer and one past it, and an operand at the last value of its field and one past. -/
theorem witness_host_moves :
    State.reset.request = none ∧ 63 + [1#8].length ≤ State.reset.params.nMax ∧ State.reset.params.nMax < 64 + [1#8].length ∧
    63 + 1 ≤ State.reset.params.outCap ∧ State.reset.params.outCap < 64 + 1 ∧
    65535 < 2 ^ State.reset.params.lenW ∧ 2 ^ State.reset.params.lenW ≤ 65536 := by decide
/-- HostReadsOut: a byte below `outDefined`, and one at it. -/
theorem witness_HostReadsOut :
    ({ State.reset with out := [(0, 7#8)], outDefined := 1 } : State).out.read 0 = some 7#8 ∧
    0 < ({ State.reset with out := [(0, 7#8)], outDefined := 1 } : State).outDefined ∧
    ({ State.reset with out := [(0, 7#8)], outDefined := 1 } : State).outDefined ≤ 1 := by decide
theorem witness_IssuedRequestIsServed :
    State.reset.params.ok = true ∧ State.reset.request = none ∧ Instr.wellFormed State.reset.params (.decode 0 1) = true ∧
    { State.reset with host := [.issue (encodeRequest (.decode 0 1)), .wait] }.host =
      .issue (encodeRequest (.decode 0 1)) :: .wait :: [] := by decide
theorem witness_OverlappingMovesHaveNoMove : (asking State.reset 0#32 0 0).request = some ⟨0#32, 0, 0⟩ := rfl
/-- InvariantAtReset, InvariantKeptByStep: a configuration that is accepted; the state after reset satisfies the invariant and
takes a step, and so does one with a request outstanding and bytes in both buffers. -/
theorem witness_Inv : State.reset.Inv :=
  ⟨by decide, ⟨by decide, by decide, by decide, by decide, by decide, by decide, by decide, by decide⟩,
    fun r h => (by cases h), ⟨List.Pairwise.nil, fun _ _ => rfl⟩, ⟨List.Pairwise.nil, fun _ _ => rfl⟩,
    fun a h => absurd h (Nat.not_lt_zero a)⟩
theorem witness_Inv_busy :
    ({ State.reset with request := some ⟨1#32, 0, 1⟩, inp := [(0, 1#8)], out := [(0, 2#8)], outDefined := 1 } : State).Inv := by
  refine ⟨by decide, ⟨by decide, by decide, by decide, by decide, by decide, by decide, by decide, by decide⟩,
    fun r h => ?_, ⟨by decide, fun a h => ?_⟩, ⟨by decide, fun a h => ?_⟩, fun a h => ?_⟩
  · cases h; decide
  · exact if_neg (fun e => by subst e; exact absurd h (by decide))
  · exact if_neg (fun e => by subst e; exact absurd h (by decide))
  · have : a = 0 := Nat.lt_one_iff.mp h
    subst this; rfl
theorem witness_step : statusOf (step State.reset) = some 0x00#8 ∧
    statusOf (step { State.reset with request := some ⟨1#32, 0, 1⟩, inp := [(0, 1#8)], out := [(0, 2#8)], outDefined := 1 }) =
      some 0x00#8 := by decide
/-- RoundTripThroughTheMachine: a window whose encoding fits OUT and stands at the end of IN. -/
theorem witness_RoundTripThroughTheMachine :
    (sized 6 4 [0x11, 0x22]).Accepts 0 2 ∧ (sized 6 4 [0x11, 0x22]).HoldsWindow 0 2 [0x11, 0x22] ∧ (cobsEncode [0x11, 0x22]).length ≤ 4 ∧
    2 + (cobsEncode [0x11, 0x22]).length ≤ (sized 6 4 [0x11, 0x22]).params.nMax :=
  ⟨⟨by decide, by decide, by decide⟩, ⟨rfl, by decide⟩, by decide, by decide⟩
/-- ResynchronisesAfterLoss: damaged bytes, a whole frame, and a byte more. -/
theorem witness_ResynchronisesAfterLoss :
    (sized 8 1 [9, 0, 2, 1, 0, 5]).Accepts 0 6 ∧
    (sized 8 1 [9, 0, 2, 1, 0, 5]).HoldsWindow 0 6 ([9] ++ zeroByte :: (cobsEncode [1] ++ [5])) ∧ zeroByte ∉ [9#8] ∧
    [1#8].length ≤ (sized 8 1 [9, 0, 2, 1, 0, 5]).params.outCap :=
  ⟨⟨by decide, by decide, by decide⟩, ⟨by decide, by decide⟩, by decide, by decide⟩

end Sys2Proof.Tests
end

section
/-! ## The lengths the codec computes (spec/40_encode.md R102, R107; spec/41_decode.md R132, R134) -/

namespace Sys2Proof.Machine

theorem segments_ne_nil (x : List Byte) : segments x ≠ [] := by
  cases x with
  | nil => simp [segments]
  | cons b bs =>
    rw [segments]
    split
    · simp
    · split <;> simp

/-- Zero-free bytes in front of the input lengthen its first segment. -/
theorem segments_append {p x s : List Byte} {ss : List (List Byte)} (hz : zeroByte ∉ p)
    (h : segments x = s :: ss) : segments (p ++ x) = (p ++ s) :: ss := by
  induction p with
  | nil => exact h
  | cons b bs ih =>
    obtain ⟨hb, hbs⟩ := not_or.mp (mt List.mem_cons.mpr hz)
    rw [List.cons_append, segments, if_neg (Ne.symm hb), ih hbs]
    rfl

/-- The size of zero-free bytes that leave the block open. -/
theorem encSize_open {p : List Byte} (hz : zeroByte ∉ p) (hp : p.length ≤ 253) : encSize p = p.length + 2 := by
  have h : segments p = [p] := by simpa using segments_append hz (x := []) rfl
  simp [encSize, h, Nat.div_eq_of_lt (show p.length < 254 by omega)]

/-- A zero byte ends a block of its own size. -/
theorem encSize_append_zero {p : List Byte} (x : List Byte) (hz : zeroByte ∉ p) (hp : p.length ≤ 253) :
    encSize (p ++ zeroByte :: x) = p.length + 1 + encSize x := by
  have h := segments_append hz (x := zeroByte :: x) (if_pos rfl)
  simp [encSize, h, Nat.div_eq_of_lt (show p.length < 254 by omega)]
  omega

/-- 254 literals fill a block, which takes one code byte more. -/
theorem encSize_append_full {p : List Byte} (x : List Byte) (hz : zeroByte ∉ p) (hp : p.length = 254) :
    encSize (p ++ x) = 255 + encSize x := by
  obtain ⟨s, ss, hx⟩ := List.exists_cons_of_ne_nil (segments_ne_nil x)
  simp [encSize, segments_append hz hx, hx, hp, fullLiterals]
  omega

/-- The frame of the encoder's blocks has the size R102 gives for the open block's literals and the input. -/
theorem frameBytes_encBlocks_length (p x : List Byte) (hz : zeroByte ∉ p) (hp : p.length ≤ 253) :
    (frameBytes (encBlocks p x)).length = encSize (p ++ x) := by
  induction x generalizing p with
  | nil => simp [encBlocks, frameBytes, blocksBytes, Block.bytes, encSize_open hz hp]
  | cons b bs ih =>
    rw [encBlocks]
    by_cases hb : b = zeroByte
    · subst hb
      rw [if_pos rfl, frameBytes_cons, encSize_append_zero bs hz hp]
      simp [ih [] (by simp) (by simp)]
      omega
    · have hz' : zeroByte ∉ p ++ [b] := by simp [hz, Ne.symm hb]
      rw [if_neg hb, List.append_cons p b bs]
      by_cases hl : p.length = 253
      · rw [if_pos hl, frameBytes_cons, encSize_append_full bs hz' (by simp [hl])]
        simp [ih [] (by simp) (by simp), hl]
        omega
      · rw [if_neg hl]
        exact ih _ hz' (by simp; omega)

/-- ENC_SIZE gives the length of what ENCODE writes (R102). -/
theorem cobsEncode_length (x : List Byte) : (cobsEncode x).length = encSize x := by
  rw [cobsEncode_eq_frame, frameBytes_encBlocks_length [] x (by simp) (by simp), List.nil_append]

/-- The segments hold no more bytes than the input. -/
theorem segments_lengths_le (x : List Byte) : ((segments x).map List.length).sum ≤ x.length := by
  induction x with
  | nil => simp [segments]
  | cons b bs ih =>
    obtain ⟨s, ss, hs⟩ := List.exists_cons_of_ne_nil (segments_ne_nil bs)
    simp only [segments, hs, List.map_cons, List.sum_cons, List.length_cons] at ih ⊢
    split
    · simp; omega
    · simp; omega

/-- Full blocks counted segment by segment are no more than those of as many bytes in one. -/
theorem sum_fullBlocks_le (l : List (List Byte)) :
    (l.map fun s => s.length / fullLiterals).sum ≤ (l.map List.length).sum / fullLiterals := by
  induction l with
  | nil => simp
  | cons s ss ih => simp only [List.map_cons, List.sum_cons, fullLiterals] at ih ⊢; omega

/-- ENC_BOUND bounds ENC_SIZE (R107). -/
theorem encSize_le_encBound (x : List Byte) : encSize x ≤ encBound x.length :=
  Nat.add_le_add_left
    ((sum_fullBlocks_le (segments x)).trans (Nat.div_le_div_right (segments_lengths_le x))) _

theorem encBound_mono {m n : Nat} (h : m ≤ n) : encBound m ≤ encBound n := by
  have := Nat.div_le_div_right (c := fullLiterals) h
  unfold encBound
  omega

theorem firstZero_lt {x : List Byte} {k : Nat} (h : firstZero x = some k) : k < x.length := by
  obtain ⟨p, q, rfl, -, rfl⟩ := firstZero_eq_some.mp h
  simp

/-- The decoder reads no more than its input. -/
theorem decodeFrom_used_le (prev : Byte) (left : Nat) (x : List Byte) : (decodeFrom prev left x).used ≤ x.length := by
  rw [(decodeFrom_stop prev left x).2]
  cases h : firstZero x with
  | none => simp
  | some k => simpa using firstZero_lt h

/-- Every byte the decoder gives takes one that it reads. -/
theorem decodeFrom_length_le_used (prev : Byte) (left : Nat) (x : List Byte) :
    (decodeFrom prev left x).y.length ≤ (decodeFrom prev left x).used := by
  induction x generalizing prev left with
  | nil => simp [decodeFrom]
  | cons b bs ih =>
    rw [decodeFrom]
    split
    · split
      · simp
      · have := ih b (b.toNat - 1)
        dsimp only
        split
        · simpa using this
        · omega
    · split
      · simp
      · simpa using ih prev (left - 1)

end Sys2Proof.Machine
end
section
/-! ## Values that fit their registers (spec/00_scope.md R6, spec/10_state.md R25 to R31) -/

namespace Sys2Proof.Machine

variable {p : Params} {s t : State} {f e : Nat}

theorem Params.ok_iff (p : Params) : p.ok = true ↔ p.nMax + 2 + p.nMax / 254 < 2 ^ p.lenW := decide_eq_true_iff

/-- The constraint of R6 makes room for the bound of every window. -/
theorem encBound_lt_two_pow_of_ok (hp : p.ok = true) {n : Nat} (hn : n ≤ p.nMax) : encBound n < 2 ^ p.lenW :=
  (encBound_mono hn).trans_lt ((Params.ok_iff p).mp hp)

/-- The constraint of R6 makes room for every address of IN and one past them. -/
theorem lt_two_pow_of_ok (hp : p.ok = true) {n : Nat} (hn : n ≤ p.nMax) : n < 2 ^ p.lenW := by
  have h := (Params.ok_iff p).mp hp
  omega

/-- A window that the common checks accept is no longer than IN. -/
theorem State.Accepts.window_length_le (h : s.Accepts f e) : (s.window f e).length ≤ s.params.nMax := by
  have hw := Machine.window_length_le (s := s) (f := f) (e := e)
  have he := h.2.1
  omega

theorem encSize_window_lt (h : s.Accepts f e) : encSize (s.window f e) < 2 ^ s.params.lenW :=
  (encSize_le_encBound _).trans_lt (encBound_lt_two_pow_of_ok h.1 h.window_length_le)

/-- The reserved bits of DECODE's `FLAGS` are 0 (R26). -/
theorem flagReserved_decodeFlags (term short : Bool) : flagReserved (decodeFlags term short) = 0#6 := by
  revert term short; decide

theorem Results.only_ok (p : Params) (st : Status) : (Results.only st).Ok p := by
  have hcode : st.code.toNat ≤ 5 := Nat.le_of_lt_succ (Status.code_lt st)
  have hflags : flagReserved 0x00#8 = 0#6 := by decide
  simp [Results.Ok, hcode, hflags]

section
variable {r : Results} {n : Nat}

theorem Results.Ok.setFlags (h : r.Ok p) {flags : BitVec 8} (hf : flagReserved flags = 0#6) :
    ({ r with flags := flags } : Results).Ok p := by
  obtain ⟨hstatus, -, hrest⟩ := h
  exact ⟨hstatus, hf, hrest⟩

theorem Results.Ok.setOutLen (h : r.Ok p) (hcap : n ≤ p.outCap) (hn : n < 2 ^ p.lenW) :
    ({ r with outLen := n } : Results).Ok p := by
  obtain ⟨hstatus, hflags, -, -, hrest⟩ := h
  exact ⟨hstatus, hflags, hcap, hn, hrest⟩

theorem Results.Ok.setConsumed (h : r.Ok p) (hn : n < 2 ^ p.lenW) : ({ r with consumed := n } : Results).Ok p := by
  obtain ⟨hstatus, hflags, hcap, hout, -, hrest⟩ := h
  exact ⟨hstatus, hflags, hcap, hout, hn, hrest⟩

theorem Results.Ok.setRange (h : r.Ok p) {a b : Nat} (ha : a < 2 ^ p.lenW) (hb : b < 2 ^ p.lenW) :
    ({ r with start := a, endAt := b } : Results).Ok p := by
  obtain ⟨hstatus, hflags, hcap, hout, hconsumed, -, -, hsize⟩ := h
  exact ⟨hstatus, hflags, hcap, hout, hconsumed, ha, hb, hsize⟩

theorem Results.Ok.setSize (h : r.Ok p) (hn : n < 2 ^ p.lenW) : ({ r with size := n } : Results).Ok p := by
  obtain ⟨hstatus, hflags, hcap, hout, hconsumed, hstart, hend, -⟩ := h
  exact ⟨hstatus, hflags, hcap, hout, hconsumed, hstart, hend, hn⟩

end

end Sys2Proof.Machine
end

section
/-! ## What keeps the invariant: the updates of State, the operations, the host's moves -/

namespace Sys2Proof.Machine

variable {s t : State} {f e : Nat}

theorem State.Inv.finish (h : s.Inv) {r : Results} (hr : r.Ok s.params) : (s.finish r).Inv :=
  ⟨h.config, hr, fun _ hq => (by cases hq), h.input, h.output, h.committed⟩

theorem State.Inv.finishOnly (h : s.Inv) (st : Status) : (s.finishOnly st).Inv :=
  h.finish (Results.only_ok s.params st)

/-- A commit that fits OUT leaves its bytes there. -/
theorem State.Inv.commitOut (h : s.Inv) {y : List Byte} (hy : y.length ≤ s.params.outCap) : (s.commitOut y).Inv := by
  refine ⟨h.config, h.results, h.request, h.input, Mem.writeBytes_fits h.output 0 y (by omega), fun a ha => ?_⟩
  have ha : a < y.length := ha
  have hread : (s.out.writeBytes 0 y).read a = y[a]? := by simpa using Mem.read_writeBytes_in s.out 0 y a ha
  rw [State.commitOut_out, hread, List.getElem?_eq_getElem ha, Option.isSome_some]

theorem State.Inv.setHost (h : s.Inv) (ms : List HostMove) : ({ s with host := ms } : State).Inv :=
  ⟨h.config, h.results, h.request, h.input, h.output, h.committed⟩

theorem State.Inv.setSeen (h : s.Inv) (seen : List Reading) (drawn : Nat) :
    ({ s with seen := seen, drawn := drawn } : State).Inv :=
  ⟨h.config, h.results, h.request, h.input, h.output, h.committed⟩

theorem State.Inv.setRequest (h : s.Inv) {r : Request} (hr : r.fits s.params = true) :
    ({ s with request := some r } : State).Inv :=
  ⟨h.config, h.results, fun _ hq => Option.some.inj hq ▸ hr, h.input, h.output, h.committed⟩

theorem State.Inv.setInp (h : s.Inv) {m : Mem} (hm : m.Fits s.params.nMax) : ({ s with inp := m } : State).Inv :=
  ⟨h.config, h.results, h.request, hm, h.output, h.committed⟩

/-- Reset leaves a state that depends on nothing but the configuration (R190). -/
theorem State.Inv.afterReset (h : s.Inv) : s.afterReset.Inv :=
  ⟨h.config, Results.only_ok s.params .ok, fun _ hq => (by cases hq), Mem.nil_fits _, Mem.nil_fits _,
    fun _ ha => absurd ha (Nat.not_lt_zero _)⟩

theorem State.Inv.endedByCheck (h : s.Inv) (ht : EndedByCheck s t f e) : t.Inv := by
  rcases ht with ⟨-, rfl⟩ | ⟨-, -, rfl⟩
  · exact h.finishOnly .inputTooLong
  · exact h.finishOnly .badOffset

theorem execEncode_keeps_inv (h : s.Inv) (ht : execEncode f e s = .next t) : t.Inv := by
  obtain ⟨-, hc | ⟨ha, -, ⟨-, rfl⟩ | ⟨hfit, rfl⟩⟩⟩ := execEncode_next ht
  · exact h.endedByCheck hc
  · exact h.finishOnly .capacityExceeded
  · have hlen : (cobsEncode (s.window f e)).length < 2 ^ s.params.lenW := by
      rw [cobsEncode_length]; exact encSize_window_lt ha
    exact (h.commitOut hfit).finish ((Results.only_ok _ .ok).setOutLen hfit hlen)

theorem execDecode_keeps_inv (h : s.Inv) (ht : execDecode f e s = .next t) : t.Inv := by
  obtain ⟨-, hc | ⟨ha, -, ⟨-, rfl⟩ | ⟨hfit, rfl⟩⟩⟩ := execDecode_next ht
  · exact h.endedByCheck hc
  · exact h.finishOnly .capacityExceeded
  · have hused : (cobsDecode (s.window f e)).used ≤ s.params.nMax :=
      (decodeFrom_used_le fullCode 0 _).trans ha.window_length_le
    have hlen : (cobsDecode (s.window f e)).y.length ≤ s.params.nMax :=
      (decodeFrom_length_le_used fullCode 0 _).trans hused
    have hlens := ((Results.only_ok _ .ok).setOutLen hfit (lt_two_pow_of_ok ha.1 hlen)).setConsumed
      (lt_two_pow_of_ok ha.1 hused)
    exact (h.commitOut hfit).finish (hlens.setFlags (flagReserved_decodeFlags _ _))

theorem execFindFrame_keeps_inv (h : s.Inv) (ht : execFindFrame f e s = .next t) : t.Inv := by
  obtain ⟨-, hc | ⟨⟨hok, he, hf⟩, ⟨k, hk, rfl⟩ | ⟨-, -, rfl⟩⟩⟩ := execFindFrame_next ht
  · exact h.endedByCheck hc
  · have hk := firstZero_lt hk
    have hw := window_length_le (s := s) (f := f) (e := e)
    have hstart : f < 2 ^ s.params.lenW := lt_two_pow_of_ok hok (hf.trans he)
    have hend : f + k + 1 < 2 ^ s.params.lenW := lt_two_pow_of_ok hok (by omega)
    exact h.finish ((Results.only_ok _ .ok).setRange hstart hend)
  · exact h.finishOnly .notFound

theorem execEncSize_keeps_inv (h : s.Inv) (ht : execEncSize f e s = .next t) : t.Inv := by
  obtain ⟨-, hc | ⟨ha, -, rfl⟩⟩ := execEncSize_next ht
  · exact h.endedByCheck hc
  · exact h.finish ((Results.only_ok _ .ok).setSize (encSize_window_lt ha))

theorem execEncBound_keeps_inv (h : s.Inv) (ht : execEncBound f e s = .next t) : t.Inv := by
  obtain ⟨-, hc | ⟨⟨hok, he, -⟩, rfl⟩⟩ := execEncBound_next ht
  · exact h.endedByCheck hc
  · have hsize : encBound (e - f) < 2 ^ s.params.lenW := encBound_lt_two_pow_of_ok hok (by omega)
    exact h.finish ((Results.only_ok _ .ok).setSize hsize)

theorem exec_keeps_inv {i : Instr} (h : s.Inv) (ht : exec i s = .next t) : t.Inv := by
  cases i with
  | encode f e => exact execEncode_keeps_inv h ht
  | decode f e => exact execDecode_keeps_inv h ht
  | findFrame f e => exact execFindFrame_keeps_inv h ht
  | encSize f e => exact execEncSize_keeps_inv h ht
  | encBound f e => exact execEncBound_keeps_inv h ht

/-- Everything the block's move can do when it answers a next state (R47). -/
theorem serve_next (h : serve s = .next t) :
    (s.request = none ∧ t = s) ∨
    (∃ r i, s.request = some r ∧ decodeRequest r = .ok i ∧ exec i s = .next t) ∨
    (∃ r d, s.request = some r ∧ decodeRequest r = .error d ∧ t = s.finishOnly .illegalOp) := by
  unfold serve at h
  split at h
  · rename_i hr; cases h; exact .inl ⟨hr, rfl⟩
  · rename_i r hr
    split at h
    · rename_i i hi; exact .inr (.inl ⟨r, i, hr, hi, h⟩)
    · rename_i d hd; cases h; exact .inr (.inr ⟨r, d, hr, hd, rfl⟩)

theorem serve_keeps_inv (h : s.Inv) (ht : serve s = .next t) : t.Inv := by
  obtain ⟨-, rfl⟩ | ⟨r, i, -, -, hexec⟩ | ⟨r, d, -, -, rfl⟩ := serve_next ht
  · exact h
  · exact exec_keeps_inv h hexec
  · exact h.finishOnly .illegalOp

theorem spanInside_iff {addr len cap : Nat} : spanInside addr len cap = true ↔ len = 0 ∨ addr + len ≤ cap := by
  simp [spanInside]

/-- The host's write to IN answers a next state only between requests and inside IN (R183, R194). -/
theorem hostWriteIn_next {addr : Nat} {bytes : List Byte} (h : hostWriteIn addr bytes s = .next t) :
    s.request = none ∧ (bytes.length = 0 ∨ addr + bytes.length ≤ s.params.nMax) ∧
      t = { s with inp := s.inp.writeBytes addr bytes } := by
  unfold hostWriteIn at h
  split at h
  · cases h
  · rename_i hr
    split at h
    · rename_i hin; cases h; exact ⟨by simpa using hr, spanInside_iff.mp hin, rfl⟩
    · cases h

/-- A request is latched only where none is outstanding and its operands fit (R22, R60). -/
theorem hostIssue_next {r : Request} (h : hostIssue r s = .next t) :
    s.request = none ∧ r.fits s.params = true ∧ t = { s with request := some r } := by
  unfold hostIssue at h
  split at h
  · cases h
  · rename_i hr
    split at h
    · rename_i hfit; cases h; exact ⟨by simpa using hr, hfit, rfl⟩
    · cases h

/-- A read of a result register adds to what the host has seen (R32). -/
theorem hostReadReg_next {r : ResultReg} (h : hostReadReg r s = .next t) :
    s.request = none ∧ t = { s with seen := s.seen ++ [.reg r (s.res.get r)] } := by
  unfold hostReadReg at h
  split at h
  · cases h
  · rename_i hr; cases h; exact ⟨by simpa using hr, rfl⟩

/-- A read of OUT adds to what the host has seen and draws its free values (R45, R47). -/
theorem hostReadOut_next {addr len : Nat} (h : hostReadOut addr len s = .next t) :
    s.request = none ∧ (len = 0 ∨ addr + len ≤ s.params.outCap) ∧
      t = { s with seen := s.seen ++ [.out addr (s.outBytes addr len)], drawn := s.drawn + len } := by
  unfold hostReadOut at h
  split at h
  · cases h
  · rename_i hr
    split at h
    · rename_i hin; cases h; exact ⟨by simpa using hr, spanInside_iff.mp hin, rfl⟩
    · cases h

theorem hostAct_keeps_inv {m : HostMove} (h : s.Inv) (ht : hostAct m s = .next t) : t.Inv := by
  cases m with
  | writeIn addr bytes =>
    obtain ⟨-, hin, rfl⟩ := hostWriteIn_next ht
    exact h.setInp (Mem.writeBytes_fits h.input addr bytes hin)
  | issue r =>
    obtain ⟨-, hfit, rfl⟩ := hostIssue_next ht
    exact h.setRequest hfit
  | wait => exact serve_keeps_inv h ht
  | readReg r =>
    obtain ⟨-, rfl⟩ := hostReadReg_next ht
    exact h.setSeen _ _
  | writeReg r v => cases ht; exact h
  | readOut addr len =>
    obtain ⟨-, -, rfl⟩ := hostReadOut_next ht
    exact h.setSeen _ _
  | reset => cases ht; exact h.afterReset

/-- Everything a step can do when it answers a next state: the host's next move, or the block's where it has none. -/
theorem step_next (h : step s = .next t) : s.params.ok = true ∧
    ((s.host = [] ∧ serve s = .next t) ∨
     ∃ m ms, s.host = m :: ms ∧ hostAct m { s with host := ms } = .next t) := by
  unfold step cycle at h
  split at h
  · rename_i hok
    refine ⟨hok, ?_⟩
    unfold nextMove at h
    split at h
    · rename_i hh; exact .inl ⟨hh, h⟩
    · rename_i m ms hh; exact .inr ⟨m, ms, hh, h⟩
  · cases h

/-- Settles O52: a step is a move of the host or of the block, and each keeps the invariant. The lengths fit their registers
because ENC_BOUND of any window does (R6), which bounds what the encoder gives (R107). -/
theorem invariantKeptByStep : Obligations.InvariantKeptByStep := by
  intro s t h ht
  obtain ⟨-, ⟨-, hserve⟩ | ⟨m, ms, -, hact⟩⟩ := step_next ht
  · exact serve_keeps_inv h hserve
  · exact hostAct_keeps_inv (h.setHost ms) hact

end Sys2Proof.Machine
end

section
/-! ## What a configuration that breaks the constraint does (spec/00_scope.md R6, spec/60_exceptions.md R182) -/

namespace Sys2Proof.Machine

variable {s : State}

/-- An operation that ends before it starts ends as its configuration and its operands say (R170). -/
theorem exec_of_earlyEnd {i : Instr} {o : Host.Outcome State Fault Refusal}
    (h : earlyEnd s i.fromOff i.inEnd = some o) : exec i s = o := by
  cases i with
  | encode f e => simp only [exec, execEncode, show earlyEnd s f e = some o from h]
  | decode f e => simp only [exec, execDecode, show earlyEnd s f e = some o from h]
  | findFrame f e => simp only [exec, execFindFrame, show earlyEnd s f e = some o from h]
  | encSize f e => simp only [exec, execEncSize, show earlyEnd s f e = some o from h]
  | encBound f e => simp only [exec, execEncBound, show earlyEnd s f e = some o from h]

theorem step_of_not_ok (h : s.params.ok = false) : step s = .refused .badConfiguration := by
  simp [step, cycle, h]

/-- Settles O11: a step makes the configuration check first, and so does every operation. -/
theorem badConfigurationIsRefused : Obligations.BadConfigurationIsRefused := by
  intro s hbad
  have hok : s.params.ok = false := Bool.eq_false_iff.mpr (mt (Params.ok_iff s.params).mp hbad)
  exact ⟨step_of_not_ok hok, fun i => exec_of_earlyEnd (earlyEnd_of_not_ok hok)⟩

end Sys2Proof.Machine
end

section
/-! ## The frame of an operation (spec/10_state.md R32, spec/20_memory.md R42, R47) -/

namespace Sys2Proof.Machine

variable {s t : State} {f e : Nat}

/-- Finishing a request writes the result registers and completes it, nothing else (R12). -/
theorem State.finish_sameOutside (s : State) (r : Results) : (s.finish r).SameOutside s := ⟨rfl, rfl, rfl, rfl, rfl⟩

/-- A commit writes OUT alone (R42). -/
theorem State.commitOut_finish_sameOutside (s : State) (y : List Byte) (r : Results) :
    ((s.commitOut y).finish r).SameOutside s := ⟨rfl, rfl, rfl, rfl, rfl⟩

theorem Status.code_eq_zero_iff {st : Status} : st.code = 0x00#8 ↔ st = .ok :=
  ⟨fun h => Status.code_inj (st' := .ok) h, fun h => h ▸ rfl⟩

theorem EndedByCheck.exists_finishOnly (h : EndedByCheck s t f e) : ∃ st, st ≠ .ok ∧ t = s.finishOnly st := by
  rcases h with ⟨-, rfl⟩ | ⟨-, -, rfl⟩
  · exact ⟨.inputTooLong, by decide, rfl⟩
  · exact ⟨.badOffset, by decide, rfl⟩

/-- ENCODE ends with a status that is not OK and 0 in the other registers, or commits what `OUT_LEN` counts. -/
theorem execEncode_ends (h : execEncode f e s = .next t) :
    (∃ st, st ≠ .ok ∧ t = s.finishOnly st) ∨
    ∃ y, t = (s.commitOut y).finish { Results.only .ok with outLen := y.length } := by
  obtain ⟨-, hc | ⟨-, -, ⟨-, rfl⟩ | ⟨-, rfl⟩⟩⟩ := execEncode_next h
  · exact .inl hc.exists_finishOnly
  · exact .inl ⟨.capacityExceeded, by decide, rfl⟩
  · exact .inr ⟨_, rfl⟩

/-- DECODE ends with a status that is not OK and 0 in the other registers, or commits what `OUT_LEN` counts. -/
theorem execDecode_ends (h : execDecode f e s = .next t) :
    (∃ st, st ≠ .ok ∧ t = s.finishOnly st) ∨
    ∃ y used flags, t = (s.commitOut y).finish
      { Results.only .ok with outLen := y.length, consumed := used, flags := flags } := by
  obtain ⟨-, hc | ⟨-, -, ⟨-, rfl⟩ | ⟨-, rfl⟩⟩⟩ := execDecode_next h
  · exact .inl hc.exists_finishOnly
  · exact .inl ⟨.capacityExceeded, by decide, rfl⟩
  · exact .inr ⟨_, _, _, rfl⟩

/-- FIND_FRAME only finishes, with `STATUS`, `START` and `END`. -/
theorem execFindFrame_ends (h : execFindFrame f e s = .next t) :
    ∃ st a b, t = s.finish { Results.only st with start := a, endAt := b } := by
  obtain ⟨-, hc | ⟨-, ⟨k, -, rfl⟩ | ⟨-, -, rfl⟩⟩⟩ := execFindFrame_next h
  · obtain ⟨st, -, rfl⟩ := hc.exists_finishOnly
    exact ⟨st, 0, 0, rfl⟩
  · exact ⟨.ok, f, f + k + 1, rfl⟩
  · exact ⟨.notFound, 0, 0, rfl⟩

/-- ENC_SIZE only finishes, with `STATUS` and `SIZE`. -/
theorem execEncSize_ends (h : execEncSize f e s = .next t) : ∃ st n, t = s.finish { Results.only st with size := n } := by
  obtain ⟨-, hc | ⟨-, -, rfl⟩⟩ := execEncSize_next h
  · obtain ⟨st, -, rfl⟩ := hc.exists_finishOnly
    exact ⟨st, 0, rfl⟩
  · exact ⟨.ok, _, rfl⟩

/-- ENC_BOUND only finishes, with `STATUS` and `SIZE`. -/
theorem execEncBound_ends (h : execEncBound f e s = .next t) :
    ∃ st n, t = s.finish { Results.only st with size := n } := by
  obtain ⟨-, hc | ⟨-, rfl⟩⟩ := execEncBound_next h
  · obtain ⟨st, -, rfl⟩ := hc.exists_finishOnly
    exact ⟨st, 0, rfl⟩
  · exact ⟨.ok, _, rfl⟩

/-- Settles O18: an operation finishes, after a commit to OUT where ENCODE or DECODE ends with OK, and both leave the rest
alone; the registers it finishes with start from zeros. -/
theorem operationsLeaveTheRest : Obligations.OperationsLeaveTheRest := by
  intro s t i h
  cases i with
  | encode f e =>
    obtain ⟨st, hst, rfl⟩ | ⟨y, rfl⟩ := execEncode_ends h
    · exact ⟨rfl, s.finish_sameOutside _, (if_neg (mt Status.code_eq_zero_iff.mp hst)).symm, rfl⟩
    · exact ⟨rfl, s.commitOut_finish_sameOutside y _, (if_pos rfl).symm, rfl⟩
  | decode f e =>
    obtain ⟨st, hst, rfl⟩ | ⟨y, used, flags, rfl⟩ := execDecode_ends h
    · exact ⟨rfl, s.finish_sameOutside _, (if_neg (mt Status.code_eq_zero_iff.mp hst)).symm, rfl⟩
    · exact ⟨rfl, s.commitOut_finish_sameOutside y _, (if_pos rfl).symm, rfl⟩
  | findFrame f e =>
    obtain ⟨st, a, b, rfl⟩ := execFindFrame_ends h
    exact ⟨rfl, s.finish_sameOutside _, rfl, rfl, rfl⟩
  | encSize f e =>
    obtain ⟨st, n, rfl⟩ := execEncSize_ends h
    exact ⟨rfl, s.finish_sameOutside _, rfl, rfl, rfl⟩
  | encBound f e =>
    obtain ⟨st, n, rfl⟩ := execEncBound_ends h
    exact ⟨rfl, s.finish_sameOutside _, rfl, rfl, rfl⟩

end Sys2Proof.Machine
end

section
/-! ## What an answer depends on (spec/10_state.md R33) -/

namespace Sys2Proof.Machine

variable {s s' : State} {f e : Nat} {r : Request}

/-- Two states that finish with the same registers report the same where OUT below `OUT_LEN` agrees. -/
theorem sameAnswer_finish {r : Results} (h : ∀ j, j < r.outLen → s.out.read j = s'.out.read j) :
    SameAnswer (.next (s.finish r)) (.next (s'.finish r)) := ⟨rfl, h⟩

/-- Where `OUT_LEN` is 0 the registers are all that is reported. -/
theorem sameAnswer_finish_of_outLen_eq_zero {r : Results} (h : r.outLen = 0) :
    SameAnswer (.next (s.finish r)) (.next (s'.finish r)) :=
  sameAnswer_finish fun j hj => absurd (h ▸ hj) (Nat.not_lt_zero j)

theorem sameAnswer_finishOnly (st : Status) : SameAnswer (.next (s.finishOnly st)) (.next (s'.finishOnly st)) :=
  sameAnswer_finish_of_outLen_eq_zero rfl

/-- The bytes reported after a commit are the committed ones, whatever OUT held. -/
theorem sameAnswer_commitOut {y : List Byte} {r : Results} (h : r.outLen = y.length) :
    SameAnswer (.next ((s.commitOut y).finish r)) (.next ((s'.commitOut y).finish r)) := by
  refine sameAnswer_finish fun j hj => ?_
  have hin (m : Mem) : (m.writeBytes 0 y).read j = y[j]? := by simpa using m.read_writeBytes_in 0 y j (h ▸ hj)
  simp [hin]

/-- The configuration and the common checks look at the parameters alone (R170). -/
theorem accepts_or_sameAnswer_earlyEnd (hp : s.params = s'.params) :
    (s.Accepts f e ∧ s'.Accepts f e) ∨
    ∃ o o', earlyEnd s f e = some o ∧ earlyEnd s' f e = some o' ∧ SameAnswer o o' := by
  cases h : earlyEnd s f e with
  | none =>
    have ha := earlyEnd_eq_none.mp h
    exact .inl ⟨ha, by rwa [State.Accepts, hp] at ha⟩
  | some o =>
    refine .inr ⟨o, ?_⟩
    rcases earlyEnd_cases h with ⟨hok, rfl⟩ | ⟨hok, hlong, rfl⟩ | ⟨hok, hfit, hoff, rfl⟩
    · exact ⟨_, rfl, earlyEnd_of_not_ok (hp ▸ hok), rfl⟩
    · exact ⟨_, rfl, earlyEnd_of_tooLong (hp ▸ hok) (hp ▸ hlong), sameAnswer_finishOnly .inputTooLong⟩
    · exact ⟨_, rfl, earlyEnd_of_badOffset (hp ▸ hok) (hp ▸ hfit) hoff, sameAnswer_finishOnly .badOffset⟩

section
variable (hp : s.params = s'.params) (ha : s.Accepts f e) (ha' : s'.Accepts f e) (hw : s.window f e = s'.window f e)
include ha ha'

theorem execEncBound_sameAnswer : SameAnswer (execEncBound f e s) (execEncBound f e s') := by
  simp only [execEncBound, earlyEnd_of_accepts ha, earlyEnd_of_accepts ha']
  exact sameAnswer_finish_of_outLen_eq_zero rfl

include hw

theorem execEncSize_sameAnswer : SameAnswer (execEncSize f e s) (execEncSize f e s') := by
  simp only [execEncSize, earlyEnd_of_accepts ha, earlyEnd_of_accepts ha', hw]
  split
  · exact sameAnswer_finish_of_outLen_eq_zero rfl
  · rfl

theorem execFindFrame_sameAnswer : SameAnswer (execFindFrame f e s) (execFindFrame f e s') := by
  simp only [execFindFrame, earlyEnd_of_accepts ha, earlyEnd_of_accepts ha', hw]
  split
  · exact sameAnswer_finish_of_outLen_eq_zero rfl
  · split
    · exact sameAnswer_finishOnly .notFound
    · rfl

include hp

theorem execEncode_sameAnswer : SameAnswer (execEncode f e s) (execEncode f e s') := by
  simp only [execEncode, earlyEnd_of_accepts ha, earlyEnd_of_accepts ha', hw, hp]
  split
  · split
    · exact sameAnswer_finishOnly .capacityExceeded
    · exact sameAnswer_commitOut rfl
  · rfl

theorem execDecode_sameAnswer : SameAnswer (execDecode f e s) (execDecode f e s') := by
  simp only [execDecode, earlyEnd_of_accepts ha, earlyEnd_of_accepts ha', hw, hp]
  split
  · split
    · exact sameAnswer_finishOnly .capacityExceeded
    · exact sameAnswer_commitOut rfl
  · rfl

end

/-- An operation's answer depends on the parameters and on the window as far as it is written. -/
theorem exec_sameAnswer {i : Instr} (hp : s.params = s'.params)
    (hw : s.window i.fromOff i.inEnd = s'.window i.fromOff i.inEnd) : SameAnswer (exec i s) (exec i s') := by
  obtain ⟨ha, ha'⟩ | ⟨o, o', h, h', hsame⟩ := accepts_or_sameAnswer_earlyEnd (f := i.fromOff) (e := i.inEnd) hp
  · cases i with
    | encode f e => exact execEncode_sameAnswer hp ha ha' hw
    | decode f e => exact execDecode_sameAnswer hp ha ha' hw
    | findFrame f e => exact execFindFrame_sameAnswer ha ha' hw
    | encSize f e => exact execEncSize_sameAnswer ha ha' hw
    | encBound f e => exact execEncBound_sameAnswer ha ha'
  · rwa [exec_of_earlyEnd h, exec_of_earlyEnd h']

/-- The operation a request selects has the request's operands (R60). -/
theorem operands_of_decodeRequest_eq_ok {i : Instr} (h : decodeRequest r = .ok i) :
    i.fromOff = r.fromOff ∧ i.inEnd = r.inEnd := by
  rcases decodeRequest_cases r with ⟨-, hd⟩ | ⟨-, hd⟩ | ⟨-, hd⟩ | ⟨-, hd⟩ | ⟨-, hd⟩ | ⟨-, -, hd⟩ | ⟨-, hd⟩ <;>
    cases hd.symm.trans h <;> exact ⟨rfl, rfl⟩

theorem serve_of_decodeRequest_eq_ok {i : Instr} (hr : s.request = some r) (hd : decodeRequest r = .ok i) :
    serve s = exec i s := by simp only [serve, hr, hd]

theorem serve_of_decodeRequest_eq_error {d : DecodeReject} (hr : s.request = some r)
    (hd : decodeRequest r = .error d) : serve s = .next (s.finishOnly .illegalOp) := by
  simp only [serve, hr, hd, serveIllegal]

theorem step_of_host_eq_nil (hok : s.params.ok = true) (hh : s.host = []) : step s = serve s := by
  simp only [step, cycle, if_pos hok, nextMove, hh]

/-- The answer to an outstanding request depends on the parameters and the window alone, for every `CMD`. -/
theorem serve_sameAnswer (hp : s.params = s'.params) (hr : s.request = some r) (hr' : s'.request = some r)
    (hw : s.window r.fromOff r.inEnd = s'.window r.fromOff r.inEnd) : SameAnswer (serve s) (serve s') := by
  cases hd : decodeRequest r with
  | ok i =>
    obtain ⟨hf, he⟩ := operands_of_decodeRequest_eq_ok hd
    rw [serve_of_decodeRequest_eq_ok hr hd, serve_of_decodeRequest_eq_ok hr' hd]
    exact exec_sameAnswer hp (by rwa [hf, he])
  | error d =>
    rw [serve_of_decodeRequest_eq_error hr hd, serve_of_decodeRequest_eq_error hr' hd]
    exact sameAnswer_finishOnly .illegalOp

/-- Settles O20: the window is what an operation reads, and with the parameters it determines the answer. -/
theorem codecIsStateless : Obligations.CodecIsStateless := by
  intro s s' hp
  refine ⟨fun i hin => exec_sameAnswer hp (window_congr hin), fun r hr hr' hh hh' hin => ?_⟩
  cases hok : s.params.ok with
  | false =>
    rw [step_of_not_ok hok, step_of_not_ok (hp ▸ hok)]
    rfl
  | true =>
    rw [step_of_host_eq_nil hok hh, step_of_host_eq_nil (hp ▸ hok) hh']
    exact serve_sameAnswer hp hr hr' (window_congr hin)

end Sys2Proof.Machine
end

section
/-! ## The result registers and reset (spec/10_state.md R32, R36, spec/70_reset_and_hazards.md R190, R191) -/

namespace Sys2Proof.Machine

theorem hostReadReg_of_request_eq_none {s : State} (h : s.request = none) (r : ResultReg) :
    hostReadReg r s = .next { s with seen := s.seen ++ [.reg r (s.res.get r)] } := by
  simp [hostReadReg, h]

/-- No operation reads a result register, and each answer is built by `finish`, which writes all seven anew (R32). -/
theorem exec_setRes (s : State) (i : Instr) (r : Results) : exec i { s with res := r } = exec i s := by
  cases i <;> rfl

/-- Settles O48: a read is seen, a write does nothing, and no operation's answer depends on old results. -/
theorem resultRegistersAreReadOnly : Obligations.ResultRegistersAreReadOnly :=
  ⟨fun _ r h => hostReadReg_of_request_eq_none h r, fun _ _ _ => rfl,
    fun s i r => (exec_setRes s i r).trans (exec_setRes s i _).symm⟩

/-- Settles O42: a reset leaves `State.afterReset`, whose registers are those of `Results.only .ok` and whose memories are
empty, like those of `State.resetWith`. -/
theorem resetState : Obligations.ResetState :=
  ⟨fun s => ⟨s.afterReset, rfl, s.afterReset_res, s.afterReset_request, Mem.read_nil, Mem.read_nil,
      s.afterReset_outDefined, s.afterReset_params⟩,
    fun _ => ⟨rfl, rfl, Mem.read_nil, Mem.read_nil, rfl⟩⟩

end Sys2Proof.Machine
end

section
/-! ## What an operation does with OUT (spec/20_memory.md R42, R46) -/

namespace Sys2Proof.Machine

variable {s t : State} {i : Instr}

/-- Everything an operation can do with OUT when it answers a next state: nothing, or the commit of an OK ENCODE or
DECODE. -/
theorem exec_next_out (h : exec i s = .next t) :
    (∃ r, r.outLen = 0 ∧ t = s.finish r) ∨
    ((∃ f e, i = .encode f e ∨ i = .decode f e) ∧
      ∃ y r, r.status = 0x00#8 ∧ r.outLen = y.length ∧ y.length ≤ s.params.outCap ∧ t = (s.commitOut y).finish r) := by
  cases i with
  | encode f e =>
    obtain ⟨-, hc | ⟨-, -, ⟨-, rfl⟩ | ⟨hfit, rfl⟩⟩⟩ := execEncode_next h
    · obtain ⟨st, -, rfl⟩ := hc.exists_finishOnly
      exact .inl ⟨_, rfl, rfl⟩
    · exact .inl ⟨_, rfl, rfl⟩
    · exact .inr ⟨⟨f, e, .inl rfl⟩, _, _, rfl, rfl, hfit, rfl⟩
  | decode f e =>
    obtain ⟨-, hc | ⟨-, -, ⟨-, rfl⟩ | ⟨hfit, rfl⟩⟩⟩ := execDecode_next h
    · obtain ⟨st, -, rfl⟩ := hc.exists_finishOnly
      exact .inl ⟨_, rfl, rfl⟩
    · exact .inl ⟨_, rfl, rfl⟩
    · exact .inr ⟨⟨f, e, .inr rfl⟩, _, _, rfl, rfl, hfit, rfl⟩
  | findFrame f e =>
    obtain ⟨st, a, b, rfl⟩ := execFindFrame_ends h
    exact .inl ⟨_, rfl, rfl⟩
  | encSize f e =>
    obtain ⟨st, n, rfl⟩ := execEncSize_ends h
    exact .inl ⟨_, rfl, rfl⟩
  | encBound f e =>
    obtain ⟨st, n, rfl⟩ := execEncBound_ends h
    exact .inl ⟨_, rfl, rfl⟩

/-- Settles O19: OUT is left alone, or an ENCODE or DECODE commits to it what `OUT_LEN` counts; and the answer depends on
the parameters and the window, not on OUT. -/
theorem onlyTheResultIsWritten : Obligations.OnlyTheResultIsWritten := by
  intro s t i h
  have hans (o : Mem) (d : Nat) : SameAnswer (exec i { s with out := o, outDefined := d }) (exec i s) :=
    exec_sameAnswer rfl rfl
  obtain ⟨r, hlen, rfl⟩ | ⟨⟨f, e, hi⟩, y, r, hok, hlen, hfit, rfl⟩ := exec_next_out h
  · rw [State.finish_res, hlen]
    exact ⟨fun _ => rfl, fun _ _ => rfl, fun a ha => absurd ha (Nat.not_lt_zero a), fun _ _ => rfl, Nat.zero_le _, hans⟩
  · rw [State.finish_res, State.finish_out, State.commitOut_out, hlen]
    refine ⟨fun hne => absurd hok hne, fun henc hdec => ?_, fun a ha => ?_, fun a ha => ?_, hfit, hans⟩
    · exact (hi.elim (henc f e) (hdec f e)).elim
    · simp [Mem.read_writeBytes, ha]
    · exact Mem.read_writeBytes_out _ _ _ _ (.inr (by omega))

/-- What reports the same as a next state is a next state. -/
theorem SameAnswer.exists_next {o : Host.Outcome State Fault Refusal} (h : SameAnswer o (.next t)) :
    ∃ u, o = .next u ∧ u.res = t.res ∧ ∀ j, j < u.res.outLen → u.out.read j = t.out.read j := by
  cases o with
  | next u => exact ⟨u, rfl, h⟩
  | fault r => exact h.elim
  | refused r => exact h.elim

/-- Settles O22: the first run leaves the parameters and IN, so the second reports the same; the bytes of OUT from
`OUT_LEN` on it does not write. -/
theorem requestIsRepeatable : Obligations.RequestIsRepeatable := by
  intro s t i h
  obtain ⟨-, ⟨hparams, hinp, -⟩, -⟩ := operationsLeaveTheRest s t i h
  have hsame : SameAnswer (exec i t) (exec i s) := exec_sameAnswer hparams (window_congr fun a _ _ => by rw [hinp])
  obtain ⟨u, hu, hres, hbelow⟩ := SameAnswer.exists_next (h ▸ hsame)
  obtain ⟨-, -, -, habove, -⟩ := onlyTheResultIsWritten t u i hu
  exact ⟨u, hu, hres, fun a => (Nat.lt_or_ge a u.res.outLen).elim (hbelow a) (habove a)⟩

end Sys2Proof.Machine
end

section
/-! ## What a step does with the memories (spec/20_memory.md R40 to R42, spec/70_reset_and_hazards.md R193) -/

namespace Sys2Proof.Machine

variable {s t : State}

/-- The block's move leaves the parameters and IN, and OUT unless it completes an ENCODE or a DECODE with OK. -/
theorem serve_memories (h : serve s = .next t) :
    t.params = s.params ∧ t.inp = s.inp ∧
    (t.out = s.out ∨ ∃ r f e, s.request = some r ∧
      (decodeRequest r = .ok (.encode f e) ∨ decodeRequest r = .ok (.decode f e)) ∧ t.res.status = 0x00#8) := by
  obtain ⟨-, rfl⟩ | ⟨r, i, hr, hd, hexec⟩ | ⟨r, d, -, -, rfl⟩ := serve_next h
  · exact ⟨rfl, rfl, .inl rfl⟩
  · obtain ⟨r', -, rfl⟩ | ⟨⟨f, e, hi⟩, y, r', hok, -, -, rfl⟩ := exec_next_out hexec
    · exact ⟨rfl, rfl, .inl rfl⟩
    · exact ⟨rfl, rfl, .inr ⟨r, f, e, hr, hi.imp (hd.trans <| congrArg _ ·) (hd.trans <| congrArg _ ·), hok⟩⟩
  · exact ⟨rfl, rfl, .inl rfl⟩

/-- Settles O53: of the moves a step can be, the block's leaves IN, and the host's other than its write to IN and its reset
leave both memories. -/
theorem whatChangesTheMemories : Obligations.WhatChangesTheMemories := by
  intro s t h
  obtain ⟨-, ⟨-, hserve⟩ | ⟨m, ms, hm, hact⟩⟩ := step_next h
  · obtain ⟨hparams, hinp, hout⟩ := serve_memories hserve
    exact ⟨hparams, .inl hinp, hout.imp_right .inr⟩
  · cases m with
    | writeIn a bs =>
      obtain ⟨-, -, rfl⟩ := hostWriteIn_next hact
      exact ⟨rfl, .inr (.inl ⟨a, bs, ms, hm⟩), .inl rfl⟩
    | issue r =>
      obtain ⟨-, -, rfl⟩ := hostIssue_next hact
      exact ⟨rfl, .inl rfl, .inl rfl⟩
    | wait =>
      obtain ⟨hparams, hinp, hout⟩ := serve_memories hact
      exact ⟨hparams, .inl hinp, hout.imp_right .inr⟩
    | readReg r =>
      obtain ⟨-, rfl⟩ := hostReadReg_next hact
      exact ⟨rfl, .inl rfl, .inl rfl⟩
    | writeReg r v => cases hact; exact ⟨rfl, .inl rfl, .inl rfl⟩
    | readOut a len =>
      obtain ⟨-, -, rfl⟩ := hostReadOut_next hact
      exact ⟨rfl, .inl rfl, .inl rfl⟩
    | reset => cases hact; exact ⟨rfl, .inr (.inr ⟨ms, hm⟩), .inr (.inl ⟨ms, hm⟩)⟩

/-- The host's write inside IN between requests answers the written IN (R183). -/
theorem hostWriteIn_of_fits {a : Nat} {bs : List Byte} (hr : s.request = none) (h : a + bs.length ≤ s.params.nMax) :
    hostWriteIn a bs s = .next { s with inp := s.inp.writeBytes a bs } := by
  simp [hostWriteIn, hr, spanInside, h]

/-- Settles O43: the write is inside IN, and of the state it changes IN alone. -/
theorem hostWritesIn : Obligations.HostWritesIn := by
  intro s a bs hr h
  exact ⟨_, hostWriteIn_of_fits hr h, Mem.read_writeBytes_in s.inp a bs, Mem.read_writeBytes_out s.inp a bs,
    rfl, hr, rfl, rfl, rfl, rfl, rfl, rfl⟩

end Sys2Proof.Machine
end

section
/-! ## Bytes never written (spec/20_memory.md R41, R45, spec/60_exceptions.md R182) -/

namespace Sys2Proof.Machine

variable {s : State} {f e : Nat}

/-- Decoding a whole input stops on a zero exactly where there is one (R132). -/
theorem cobsDecode_term_eq_false {x : List Byte} : (cobsDecode x).term = false ↔ zeroByte ∉ x := by
  rw [cobsDecode, (decodeFrom_stop fullCode 0 x).1, Option.isSome_eq_false_iff, Option.isNone_iff_eq_none,
    firstZero_eq_none]

/-- The window reads no further than to a byte that was never written. -/
theorem window_length_le_of_read_eq_none {a : Nat} (hf : f ≤ a) (ha : s.inp.read a = none) :
    (s.window f e).length ≤ a - f := by
  by_contra hlt
  have hget := window_get (s := s) (f := f) (e := e) (j := a - f) (by omega)
  rw [Nat.add_sub_cancel' hf, ha] at hget
  exact hlt (List.getElem?_eq_none_iff.mp hget.symm)

/-- The window reads short exactly where one of its bytes was never written. -/
theorem windowWritten_eq_false_iff :
    windowWritten (s.window f e) f e = false ↔ ∃ a, f ≤ a ∧ a < e ∧ s.inp.read a = none := by
  constructor
  · intro h
    have hlt := windowWritten_eq_false h
    exact ⟨_, Nat.le_add_right f _, by omega, window_stop hlt⟩
  · rintro ⟨a, hf, he, ha⟩
    have hle := window_length_le_of_read_eq_none (e := e) hf ha
    exact decide_eq_false (by unfold windowLen; omega)

/-- The window reads short with no zero read exactly where a byte that was never written comes before any zero. -/
theorem window_unstopped_iff :
    zeroByte ∉ s.window f e ∧ windowWritten (s.window f e) f e = false ↔
      ∃ a, f ≤ a ∧ a < e ∧ s.inp.read a = none ∧ ∀ b, f ≤ b → b < a → s.inp.read b ≠ some zeroByte := by
  constructor
  · rintro ⟨hz, h⟩
    have hlt := windowWritten_eq_false h
    refine ⟨_, Nat.le_add_right f _, by omega, window_stop hlt, fun b hb hba hread => hz ?_⟩
    have hget := window_get (s := s) (f := f) (e := e) (j := b - f) (by omega)
    rw [Nat.add_sub_cancel' hb, hread] at hget
    exact List.mem_of_getElem? hget.symm
  · rintro ⟨a, hf, he, ha, hbefore⟩
    refine ⟨fun hz => ?_, windowWritten_eq_false_iff.mpr ⟨a, hf, he, ha⟩⟩
    have hle := window_length_le_of_read_eq_none (e := e) hf ha
    obtain ⟨j, hj, hget⟩ := List.mem_iff_getElem.mp hz
    refine hbefore (f + j) (Nat.le_add_right f j) (by omega) ?_
    rw [window_get hj, List.getElem?_eq_getElem hj, hget]

section
variable (h : s.Accepts f e)
include h

theorem execEncode_eq_fault_iff :
    execEncode f e s = .fault .uninitRead ↔ windowWritten (s.window f e) f e = false := by
  simp only [execEncode, earlyEnd_of_accepts h]
  cases windowWritten (s.window f e) f e with
  | true => rw [if_pos rfl]; split <;> simp
  | false => simp

theorem execEncSize_eq_fault_iff :
    execEncSize f e s = .fault .uninitRead ↔ windowWritten (s.window f e) f e = false := by
  simp only [execEncSize, earlyEnd_of_accepts h]
  cases windowWritten (s.window f e) f e <;> simp

theorem execDecode_eq_fault_iff : execDecode f e s = .fault .uninitRead ↔
    zeroByte ∉ s.window f e ∧ windowWritten (s.window f e) f e = false := by
  rw [← cobsDecode_term_eq_false, ← Bool.or_eq_false_iff]
  simp only [execDecode, earlyEnd_of_accepts h]
  cases (cobsDecode (s.window f e)).term || windowWritten (s.window f e) f e with
  | true => rw [if_pos rfl]; split <;> simp
  | false => simp

theorem execFindFrame_eq_fault_iff : execFindFrame f e s = .fault .uninitRead ↔
    zeroByte ∉ s.window f e ∧ windowWritten (s.window f e) f e = false := by
  rw [← firstZero_eq_none]
  simp only [execFindFrame, earlyEnd_of_accepts h]
  cases firstZero (s.window f e) with
  | some k => simp
  | none => cases windowWritten (s.window f e) f e <;> simp

theorem execEncBound_ne_fault (r : Fault) : execEncBound f e s ≠ .fault r := by
  simp [execEncBound, earlyEnd_of_accepts h]

end

/-- Settles O12: an operation faults exactly where its window reads short; DECODE and FIND_FRAME only where no zero stopped
them first (notes/assumptions/8.md). -/
theorem uninitReadFaultsExactly : Obligations.UninitReadFaultsExactly := by
  intro s f e h
  exact ⟨(execEncode_eq_fault_iff h).trans windowWritten_eq_false_iff,
    (execEncSize_eq_fault_iff h).trans windowWritten_eq_false_iff,
    (execDecode_eq_fault_iff h).trans window_unstopped_iff,
    (execFindFrame_eq_fault_iff h).trans window_unstopped_iff,
    execEncBound_ne_fault h⟩

end Sys2Proof.Machine
end

section
/-! ## What ENCODE and DECODE do with the bytes they read (spec/40_encode.md R104, spec/41_decode.md R132, R135) -/

namespace Sys2Proof.Machine

variable {s s' t : State} {f e : Nat} {x : List Byte}

/-- ENCODE of the window `x` (R104). -/
theorem execEncode_of_holds (ha : s.Accepts f e) (hx : s.HoldsWindow f e x) :
    execEncode f e s =
      if s.params.outCap < (cobsEncode x).length then .next (s.finishOnly .capacityExceeded)
      else .next ((s.commitOut (cobsEncode x)).finish { Results.only .ok with outLen := (cobsEncode x).length }) := by
  simp only [execEncode, earlyEnd_of_accepts ha, window_of_holds hx, windowWritten_of_holds hx, if_true, gt_iff_lt]

/-- Bytes that stand in IN where the window begins are the first it reads. -/
theorem window_of_inputAt (hx : s.InputAt f x) (hlen : x.length ≤ e - f) : ∃ tl, s.window f e = x ++ tl := by
  have htake : (s.window f e).take x.length = x :=
    (Mem.readable_take s.inp f (windowLen f e) x.length hlen).symm.trans (Mem.readable_eq s.inp f x hx)
  have happend := List.take_append_drop x.length (s.window f e)
  rw [htake] at happend
  exact ⟨_, happend.symm⟩

/-- The first zero stays the first whatever follows it. -/
theorem firstZero_append {k : Nat} (h : firstZero x = some k) (tl : List Byte) : firstZero (x ++ tl) = some k := by
  obtain ⟨p, q, rfl, hz, hk⟩ := firstZero_eq_some.mp h
  exact firstZero_eq_some.mpr ⟨p, q ++ tl, by simp, hz, hk⟩

/-- The bytes up to the first zero have the same first zero. -/
theorem firstZero_take {k : Nat} (h : firstZero x = some k) : firstZero (x.take (k + 1)) = some k := by
  obtain ⟨p, q, rfl, hz, rfl⟩ := firstZero_eq_some.mp h
  exact firstZero_eq_some.mpr ⟨p, [], by simp [List.take_append], hz, rfl⟩

theorem cobsDecode_term (x : List Byte) : (cobsDecode x).term = (firstZero x).isSome := (decodeFrom_stop fullCode 0 x).1

theorem cobsDecode_used (x : List Byte) : (cobsDecode x).used = ((firstZero x).map (· + 1)).getD x.length :=
  (decodeFrom_stop fullCode 0 x).2

/-- DECODE stops on a zero, or it consumes its whole input (R131). -/
theorem cobsDecode_term_or_used (x : List Byte) : (cobsDecode x).term = true ∨ (cobsDecode x).used = x.length := by
  rw [cobsDecode_term, cobsDecode_used]
  cases firstZero x with
  | none => exact .inr rfl
  | some k => exact .inl rfl

/-- Decoding the bytes that are consumed gives what decoding the whole input gives (R132). -/
theorem cobsDecode_take_used (x : List Byte) : cobsDecode (x.take (cobsDecode x).used) = cobsDecode x := by
  rw [cobsDecode_used]
  cases h : firstZero x with
  | none => exact congrArg cobsDecode List.take_length
  | some k =>
    have hstop : (cobsDecode (x.take (k + 1))).term = true := by rw [cobsDecode_term, firstZero_take h]; rfl
    have happend := decodeFrom_append fullCode 0 _ (x.drop (k + 1)) hstop
    rw [List.take_append_drop] at happend
    exact happend.symm

/-- DECODE of the bytes `x`: the window, or as much of it as there is up to the zero that stops it (R135, R41). -/
theorem execDecode_of_inputAt (ha : s.Accepts f e) (hx : s.InputAt f x) (hlen : x.length ≤ e - f)
    (hstop : (cobsDecode x).term = true ∨ x.length = e - f) :
    execDecode f e s =
      if s.params.outCap < (cobsDecode x).y.length then .next (s.finishOnly .capacityExceeded)
      else .next ((s.commitOut (cobsDecode x).y).finish
        { Results.only .ok with
          outLen := (cobsDecode x).y.length
          consumed := (cobsDecode x).used
          flags := decodeFlags (cobsDecode x).term (cobsDecode x).short }) := by
  obtain ⟨hdec, hread⟩ : cobsDecode (s.window f e) = cobsDecode x ∧
      ((cobsDecode x).term || windowWritten (s.window f e) f e) = true := by
    rcases hstop with hterm | hall
    · obtain ⟨tl, hw⟩ := window_of_inputAt hx hlen
      exact ⟨by rw [hw]; exact decodeFrom_append fullCode 0 x tl hterm, by simp [hterm]⟩
    · have hh : s.HoldsWindow f e x := ⟨hall, hx⟩
      rw [window_of_holds hh, windowWritten_of_holds hh]
      exact ⟨rfl, Bool.or_true _⟩
  simp only [execDecode, earlyEnd_of_accepts ha, hdec, hread, if_true, gt_iff_lt]

end Sys2Proof.Machine
end

section
/-! ## Which bytes of IN an answer depends on (spec/20_memory.md R41) -/

namespace Sys2Proof.Machine

variable {s s' t : State} {f e : Nat} {x : List Byte}

/-- Operands that fail a common check end every request the same way, with no byte of IN read (R170). -/
theorem exec_sameAnswer_of_not_accepts {i : Instr} (hp : s.params = s'.params) (hna : ¬ s.Accepts i.fromOff i.inEnd) :
    SameAnswer (exec i s) (exec i s') := by
  obtain ⟨ha, -⟩ | ⟨o, o', h, h', hsame⟩ := accepts_or_sameAnswer_earlyEnd (f := i.fromOff) (e := i.inEnd) hp
  · exact absurd ha hna
  · rwa [exec_of_earlyEnd h, exec_of_earlyEnd h']

theorem exec_encBound_sameAnswer (hp : s.params = s'.params) :
    SameAnswer (exec (.encBound f e) s) (exec (.encBound f e) s') := by
  by_cases ha : s.Accepts f e
  · exact execEncBound_sameAnswer ha (by rwa [State.Accepts, hp] at ha)
  · exact exec_sameAnswer_of_not_accepts hp ha

theorem EndedByCheck.status_ne_ok (h : EndedByCheck s t f e) : t.res.status ≠ 0x00#8 := by
  obtain ⟨st, hst, rfl⟩ := h.exists_finishOnly
  exact mt Status.code_eq_zero_iff.mp hst

/-- The window's first `n` bytes stand in every memory that agrees with IN on them. -/
theorem inputAt_window_take {n : Nat} (h : ∀ a, f ≤ a → a < f + n → s'.inp.read a = s.inp.read a) :
    s'.InputAt f ((s.window f e).take n) := by
  intro j hj
  rw [List.length_take] at hj
  have hget := window_get (s := s) (f := f) (e := e) (j := j) (by omega)
  rw [h (f + j) (by omega) (by omega), hget, List.getElem?_take_of_lt (by omega)]

/-- An OK DECODE depends on the bytes it consumed alone. -/
theorem execDecode_sameAnswer_of_consumed (hp : s'.params = s.params) (h : execDecode f e s = .next t)
    (hok : t.res.status = 0x00#8)
    (hin : ∀ a, f ≤ a → a < f + t.res.consumed → s'.inp.read a = s.inp.read a) :
    SameAnswer (execDecode f e s') (.next t) := by
  obtain ⟨-, hc | ⟨ha, hstop, ⟨-, rfl⟩ | ⟨hfit, rfl⟩⟩⟩ := execDecode_next h
  · exact absurd hok hc.status_ne_ok
  · exact absurd hok (show Status.capacityExceeded.code ≠ 0x00#8 by decide)
  · have ha' : s'.Accepts f e := by rwa [State.Accepts, hp]
    have hused : (cobsDecode (s.window f e)).used ≤ (s.window f e).length := decodeFrom_used_le fullCode 0 _
    have hwindow := window_length_le (s := s) (f := f) (e := e)
    have hlen := List.length_take_of_le hused
    have hx := inputAt_window_take (e := e) (n := (cobsDecode (s.window f e)).used) hin
    have hdec := cobsDecode_take_used (s.window f e)
    have hall : (cobsDecode (s.window f e)).term = true ∨ (cobsDecode (s.window f e)).used = e - f := by
      obtain hterm | ⟨hholds, -⟩ := hstop
      · exact .inl hterm
      · exact hholds ▸ cobsDecode_term_or_used (s.window f e)
    rw [execDecode_of_inputAt ha' hx (by omega) (by rwa [hdec, hlen]), hdec, hp,
      if_neg (Nat.not_lt.mpr hfit)]
    exact sameAnswer_commitOut rfl

/-- An OK FIND_FRAME depends on the bytes below its `END` alone. -/
theorem execFindFrame_sameAnswer_of_endAt (hp : s'.params = s.params) (h : execFindFrame f e s = .next t)
    (hok : t.res.status = 0x00#8)
    (hin : ∀ a, f ≤ a → a < t.res.endAt → s'.inp.read a = s.inp.read a) :
    SameAnswer (execFindFrame f e s') (.next t) := by
  obtain ⟨-, hc | ⟨ha, ⟨k, hk, rfl⟩ | ⟨-, -, rfl⟩⟩⟩ := execFindFrame_next h
  · exact absurd hok hc.status_ne_ok
  · have ha' : s'.Accepts f e := by rwa [State.Accepts, hp]
    have hlen : ((s.window f e).take (k + 1)).length ≤ e - f := (List.length_take_le' ..).trans window_length_le
    obtain ⟨tl, hw⟩ := window_of_inputAt (inputAt_window_take hin) hlen
    have hk' : firstZero (s'.window f e) = some k := by rw [hw]; exact firstZero_append (firstZero_take hk) tl
    simp only [execFindFrame, earlyEnd_of_accepts ha', hk']
    exact sameAnswer_finish_of_outLen_eq_zero rfl
  · exact absurd hok (show Status.notFound.code ≠ 0x00#8 by decide)

/-- Settles O21: an OK DECODE or FIND_FRAME stops where the bytes it read end; ENC_BOUND and the common checks look at the
parameters and the operands alone. -/
theorem readsOnlyWhatItConsumes : Obligations.ReadsOnlyWhatItConsumes := by
  intro s t m
  refine ⟨fun f e h hok hin => execDecode_sameAnswer_of_consumed (s := s) rfl h hok hin,
    fun f e h hok hin => execFindFrame_sameAnswer_of_endAt (s := s) rfl h hok hin,
    fun f e => exec_encBound_sameAnswer rfl,
    fun i hbad => exec_sameAnswer_of_not_accepts rfl fun ⟨_, he, hf⟩ => ?_⟩
  have he : i.inEnd ≤ s.params.nMax := he
  omega

end Sys2Proof.Machine
end

section
/-! ## The host reads what was committed (spec/20_memory.md R45, R48, spec/60_exceptions.md R183) -/

namespace Sys2Proof.Machine

variable {s : State} {y : List Byte} {r : Results}

/-- The bytes of the last commit read back as they were committed. -/
theorem outBytes_commitOut_finish : ((s.commitOut y).finish r).outBytes 0 y.length = y := by
  refine List.ext_getElem (by simp [State.outBytes]) fun j _ hj => ?_
  have hread : (s.out.writeBytes 0 y).read j = some y[j] := by simp [Mem.read_writeBytes, hj]
  simp [State.outBytes, State.outByte, hj, hread]

/-- After a commit that fits OUT, a host read of its length gives the committed bytes. -/
theorem hostReadOut_commitOut_finish (hfit : y.length ≤ s.params.outCap) :
    ∃ u, hostReadOut 0 y.length ((s.commitOut y).finish r) = .next u ∧ u.seen = s.seen ++ [.out 0 y] := by
  have hspan : spanInside 0 y.length ((s.commitOut y).finish r).params.outCap = true :=
    spanInside_iff.mpr (.inr (by simpa using hfit))
  simp only [hostReadOut, hspan, outBytes_commitOut_finish]
  exact ⟨_, rfl, rfl⟩

/-- Settles O50: ENCODE commits cobs_encode of the window, and the commit is what the host reads. -/
theorem hostReadsTheEncodedFrame : Obligations.HostReadsTheEncodedFrame := by
  intro s f e x ha hx hfit
  obtain ⟨u, hu, hseen⟩ := hostReadOut_commitOut_finish hfit
  exact ⟨_, u, (execEncode_of_holds ha hx).trans (if_neg (Nat.not_lt.mpr hfit)), hu, hseen⟩

/-- Settles O58: DECODE commits cobs_decode of the bytes it read, and the commit is what the host reads. -/
theorem hostReadsTheDecodedMessage : Obligations.HostReadsTheDecodedMessage := by
  intro s f e x ha hx hlen hstop hfit
  obtain ⟨u, hu, hseen⟩ := hostReadOut_commitOut_finish hfit
  exact ⟨_, u, (execDecode_of_inputAt ha hx hlen hstop).trans (if_neg (Nat.not_lt.mpr hfit)), rfl, rfl, hu, hseen⟩

end Sys2Proof.Machine
end

section
/-! ## Canonical frames are what the encoder gives (spec/30_encoding.md R66 to R68) -/

namespace Sys2Proof.Machine

variable {b : Block} {bs : List Block} {f l : List Byte}

/-- Zero-free bytes that leave the block open join its literals. -/
theorem encBlocks_append_lits (p x : List Byte) (hz : zeroByte ∉ l) (hl : p.length + l.length ≤ 253) :
    encBlocks p (l ++ x) = encBlocks (p ++ l) x := by
  induction l generalizing p with
  | nil => simp
  | cons b bs ih =>
    obtain ⟨hb, hbs⟩ := not_or.mp (mt List.mem_cons.mpr hz)
    rw [List.length_cons] at hl
    rw [List.cons_append, encBlocks, if_neg (Ne.symm hb), if_neg (by omega), ih _ hbs (by simp; omega)]
    simp

/-- 254 literals are a full block. -/
theorem encBlocks_append_full (x : List Byte) (hz : zeroByte ∉ l) (hl : l.length = 254) :
    encBlocks [] (l ++ x) = ⟨fullCode, l⟩ :: encBlocks [] x := by
  obtain rfl | ⟨p, b, rfl⟩ := List.eq_nil_or_concat' l
  · cases hl
  · have hp : p.length = 253 := by simpa using hl
    simp only [List.mem_append, List.mem_singleton, not_or] at hz
    rw [List.append_assoc, encBlocks_append_lits [] _ hz.1 (by simp [hp]), List.nil_append, List.singleton_append,
      encBlocks, if_neg (Ne.symm hz.2), if_pos hp]

/-- A zero byte ends the open block, and what follows it begins a new one. -/
theorem encBlocks_append_zero (p u x : List Byte) :
    encBlocks p (u ++ zeroByte :: x) = encBlocks p u ++ encBlocks [] x := by
  induction u generalizing p with
  | nil => simp [encBlocks]
  | cons b bs ih =>
    simp only [List.cons_append, encBlocks, ih]
    split
    · rfl
    · split <;> rfl

/-- The code of a block says how many literals it has (R67). -/
theorem Block.code_toNat_of_ok (hb : b.ok = true) : b.code.toNat = b.lits.length + 1 := by
  obtain ⟨hc, hl, -⟩ := (Block.ok_iff b).mp hb
  have hpos : b.code.toNat ≠ 0 := fun h => hc (BitVec.eq_of_toNat_eq h)
  omega

theorem Block.lits_length_le_of_ok (hb : b.ok = true) : b.lits.length ≤ 254 := by
  have hcode := Block.code_toNat_of_ok hb
  have hlt := b.code.isLt
  omega

theorem Block.eq_ofNat_of_ok (hb : b.ok = true) : b = ⟨BitVec.ofNat 8 (b.lits.length + 1), b.lits⟩ := by
  rw [← Block.code_toNat_of_ok hb, BitVec.ofNat_toNat, BitVec.setWidth_eq]

theorem Block.zero_notMem_of_ok (hb : b.ok = true) : zeroByte ∉ b.lits := ((Block.ok_iff b).mp hb).2.2

/-- A block is full exactly when it has 254 literals (R67). -/
theorem Block.code_eq_full_iff (hb : b.ok = true) : b.code = fullCode ↔ b.lits.length = 254 := by
  rw [Block.eq_ofNat_of_ok hb, code_eq_full (Block.lits_length_le_of_ok hb)]

/-- The encoder over the literals of a block that is not full gives the block. -/
theorem encBlocks_lits (hb : b.ok = true) (hfull : b.code ≠ fullCode) : encBlocks [] b.lits = [b] := by
  have hle := Block.lits_length_le_of_ok hb
  have hne := mt (Block.code_eq_full_iff hb).mpr hfull
  have hjoin := encBlocks_append_lits [] [] (Block.zero_notMem_of_ok hb) (by simp; omega)
  rw [List.append_nil, List.nil_append] at hjoin
  rw [hjoin, encBlocks, ← Block.eq_ofNat_of_ok hb]

/-- The encoder over a block's literals and the implicit zero after them (R66) gives the block, and begins a new one. -/
theorem encBlocks_lits_append (x : List Byte) (hb : b.ok = true) :
    encBlocks [] (b.lits ++ ((if b.code ≠ fullCode then [zeroByte] else []) ++ x)) = b :: encBlocks [] x := by
  by_cases hfull : b.code = fullCode
  · rw [if_neg (not_not.mpr hfull), List.nil_append,
      encBlocks_append_full x (Block.zero_notMem_of_ok hb) ((Block.code_eq_full_iff hb).mp hfull), ← hfull]
  · rw [if_pos hfull, List.singleton_append, encBlocks_append_zero, encBlocks_lits hb hfull, List.singleton_append]

/-- What blocks decode to: the first block's literals and, where another one follows, its implicit zero (R66). -/
theorem blocksContent_cons_cons (b c : Block) (bs : List Block) :
    blocksContent (b :: c :: bs) =
      b.lits ++ ((if b.code ≠ fullCode then [zeroByte] else []) ++ blocksContent (c :: bs)) := by
  simp [blocksContent, contentAfter]

/-- The encoder over what some blocks decode to gives these blocks, where the last one is not full (R68). -/
theorem encBlocks_blocksContent (hne : bs ≠ []) (hok : ∀ b ∈ bs, b.ok = true) (hlast : lastCode bs ≠ fullCode) :
    encBlocks [] (blocksContent bs) = bs := by
  induction bs with
  | nil => exact absurd rfl hne
  | cons b bs ih =>
    obtain ⟨hb, hbs⟩ := List.forall_mem_cons.mp hok
    cases bs with
    | nil =>
      have hcontent : blocksContent [b] = b.lits := by simp [blocksContent, contentAfter]
      rw [hcontent, encBlocks_lits hb hlast]
    | cons c cs =>
      have hcs := List.cons_ne_nil c cs
      rw [blocksContent_cons_cons, encBlocks_lits_append _ hb, ih hcs hbs (lastCode_cons b hcs ▸ hlast)]

theorem cobsEncode_blocksContent (hf : FrameOf bs f) (hlast : lastCode bs ≠ fullCode) :
    cobsEncode (blocksContent bs) = f := by
  obtain ⟨hne, hok, rfl⟩ := hf
  rw [cobsEncode_eq_frame, encBlocks_blocksContent hne hok hlast]

/-- Decoding a frame gives what its blocks decode to, whatever follows the frame (R66, R132). -/
theorem cobsDecode_frameBytes_append (hok : ∀ b ∈ bs, b.ok = true) (tl : List Byte) :
    cobsDecode (frameBytes bs ++ tl) = ⟨blocksContent bs, true, false, (frameBytes bs).length⟩ := by
  rw [cobsDecode, frameBytes, List.append_assoc, decodeFrom_blocks fullCode bs _ hok]
  simp [blocksContent]

theorem FrameOf.cobsDecode_y (hf : FrameOf bs f) : (cobsDecode f).y = blocksContent bs := by
  obtain ⟨-, hok, rfl⟩ := hf
  simpa using congrArg Decoded.y (cobsDecode_frameBytes_append hok [])

/-- What ENCODE gives is a canonical frame (R103). -/
theorem canonicalFrame_cobsEncode (x : List Byte) : CanonicalFrame (cobsEncode x) :=
  ⟨encBlocks [] x, ⟨encBlocks_ne_nil _ _, encBlocks_ok [] x (by simp) (by simp), cobsEncode_eq_frame x⟩,
    encBlocks_lastCode [] x (by simp)⟩

/-- Encoding what a canonical frame decodes to gives the frame back (R68). -/
theorem CanonicalFrame.cobsEncode_cobsDecode (hf : CanonicalFrame f) : cobsEncode (cobsDecode f).y = f := by
  obtain ⟨bs, hbs, hlast⟩ := hf
  rw [hbs.cobsDecode_y, cobsEncode_blocksContent hbs hlast]

theorem ok_of_full_lits (hz : zeroByte ∉ l) (hl : l.length = 254) : Block.ok ⟨fullCode, l⟩ = true := by
  have hok := ok_of_lits hz hl.le
  rwa [(code_eq_full hl.le).mpr hl] at hok

/-- A zero-free run of 254 bytes or a multiple of them gives full blocks, then a last block of no literals (R68). -/
theorem encBlocks_full_run {m : Nat} (hm : 1 ≤ m) (hz : zeroByte ∉ l) (hl : l.length = 254 * m) :
    ∃ bs lits, (∀ b ∈ bs, b.ok = true) ∧ Block.ok ⟨fullCode, lits⟩ = true ∧
      encBlocks [] l = bs ++ [⟨fullCode, lits⟩, ⟨0x01#8, []⟩] := by
  induction m, hm using Nat.le_induction generalizing l with
  | base => exact ⟨[], l, by simp, ok_of_full_lits hz hl, by simpa [encBlocks] using encBlocks_append_full [] hz hl⟩
  | succ m hm ih =>
    have hzt : zeroByte ∉ l.take 254 := fun h => hz (List.mem_of_mem_take h)
    have hzd : zeroByte ∉ l.drop 254 := fun h => hz (List.mem_of_mem_drop h)
    have hlt : (l.take 254).length = 254 := List.length_take_of_le (by omega)
    have hld : (l.drop 254).length = 254 * m := by rw [List.length_drop]; omega
    obtain ⟨bs, lits, hbs, hfull, hblocks⟩ := ih hzd hld
    refine ⟨⟨fullCode, l.take 254⟩ :: bs, lits, List.forall_mem_cons.mpr ⟨ok_of_full_lits hzt hlt, hbs⟩, hfull, ?_⟩
    have hfirst := encBlocks_append_full (l.drop 254) hzt hlt
    rw [List.take_append_drop] at hfirst
    rw [hfirst, hblocks, List.cons_append]

/-- The same run at the end of an input, where a block begins (R68). -/
theorem cobsEncode_append_full_run {p : List Byte} {m : Nat} (hp : p = [] ∨ p.getLast? = some zeroByte)
    (hz : zeroByte ∉ l) (hm : 1 ≤ m) (hl : l.length = 254 * m) :
    ∃ bs lits, (∀ b ∈ bs, b.ok = true) ∧ Block.ok ⟨fullCode, lits⟩ = true ∧
      cobsEncode (p ++ l) = frameBytes (bs ++ [⟨fullCode, lits⟩, ⟨0x01#8, []⟩]) := by
  obtain ⟨bs, lits, hbs, hfull, hblocks⟩ := encBlocks_full_run hm hz hl
  rcases hp with rfl | hp
  · exact ⟨bs, lits, hbs, hfull, by rw [List.nil_append, cobsEncode_eq_frame, hblocks]⟩
  · obtain ⟨u, rfl⟩ := List.getLast?_eq_some_iff.mp hp
    have hu : ∀ b ∈ encBlocks [] u, b.ok = true := encBlocks_ok [] u (by simp) (by simp)
    refine ⟨encBlocks [] u ++ bs, lits, List.forall_mem_append.mpr ⟨hu, hbs⟩, hfull, ?_⟩
    rw [cobsEncode_eq_frame, List.append_assoc, List.singleton_append, encBlocks_append_zero, hblocks,
      List.append_assoc]

theorem contentAfter_append (prev : Byte) (bs cs : List Block) :
    contentAfter prev (bs ++ cs) = contentAfter prev bs ++ contentAfter (lastCodeFrom prev bs) cs := by
  induction bs generalizing prev with
  | nil => rfl
  | cons b bs ih => simp [contentAfter, ih]

/-- After a full block, a block of no literals adds nothing to what is decoded (R66). -/
theorem blocksContent_append_empty (hlast : lastCode bs = fullCode) :
    blocksContent (bs ++ [⟨0x01#8, []⟩]) = blocksContent bs := by
  have hlast : lastCodeFrom fullCode bs = fullCode := hlast
  simp [blocksContent, contentAfter_append, hlast, contentAfter]

/-- With a last block of no literals, every well-formed frame is canonical (R68). -/
theorem frameOf_append_empty (hok : ∀ b ∈ bs, b.ok = true) :
    FrameOf (bs ++ [⟨0x01#8, []⟩]) (frameBytes (bs ++ [⟨0x01#8, []⟩])) :=
  ⟨by simp, List.forall_mem_append.mpr ⟨hok, by decide⟩, rfl⟩

theorem lastCode_append_empty (bs : List Block) : lastCode (bs ++ [⟨0x01#8, []⟩]) ≠ fullCode := by
  have hcode : 0x01#8 ≠ fullCode := by decide
  simpa [lastCode] using hcode

/-- Settles O30: on blocks whose last is not full, the encoder inverts what they decode to (`encBlocks_blocksContent`). A
frame that ends in a full block decodes like the one with a last block of no literals, which is longer, and this one is what
the encoder gives. -/
theorem canonicalFramesAreTheEncoded : Obligations.CanonicalFramesAreTheEncoded := by
  refine ⟨fun f => ⟨fun hf => ⟨_, hf.cobsEncode_cobsDecode⟩, ?_⟩, fun f hf => hf.cobsEncode_cobsDecode,
    fun p r m hp hz hm hl => cobsEncode_append_full_run hp hz hm hl, fun bs f hf hlast => ?_⟩
  · rintro ⟨x, rfl⟩
    exact canonicalFrame_cobsEncode x
  · have ⟨_, hok, hbytes⟩ := hf
    have hlonger := frameOf_append_empty hok
    have hdecode : (cobsDecode f).y = (cobsDecode (frameBytes (bs ++ [⟨0x01#8, []⟩]))).y := by
      rw [hf.cobsDecode_y, hlonger.cobsDecode_y, blocksContent_append_empty hlast]
    have hcanonical : CanonicalFrame (frameBytes (bs ++ [⟨0x01#8, []⟩])) :=
      ⟨_, hlonger, lastCode_append_empty bs⟩
    refine ⟨hdecode, hcanonical, ?_⟩
    rintro x rfl
    have hencode := (canonicalFrame_cobsEncode x).cobsEncode_cobsDecode
    rw [hdecode, hcanonical.cobsEncode_cobsDecode, hbytes] at hencode
    simpa [frameBytes, blocksBytes, Block.bytes] using congrArg List.length hencode

end Sys2Proof.Machine
end

section
/-! ## The command word's decoder (spec/30_encoding.md R60 to R62) -/

namespace Sys2Proof.Machine

variable {r : Request} {i : Instr}

theorem decodeRequest_encodeRequest (i : Instr) : decodeRequest (encodeRequest i) = .ok i := by
  cases i <;> simp [decodeRequest, encodeRequest, cmdOf, rsvField_eq_zero, opField_toNat, Instr.fromOff, Instr.inEnd]

theorem encodeRequest_fits (p : Params) (i : Instr) : (encodeRequest i).fits p = i.wellFormed p := rfl

/-- The words that decode to an operation are its own (R61). -/
theorem encodeRequest_eq_of_decodeRequest_eq_ok (h : decodeRequest r = .ok i) : encodeRequest i = r := by
  obtain ⟨cmd, f, e⟩ := r
  rcases decodeRequest_cases ⟨cmd, f, e⟩ with
    ⟨rfl, hd⟩ | ⟨rfl, hd⟩ | ⟨rfl, hd⟩ | ⟨rfl, hd⟩ | ⟨rfl, hd⟩ | ⟨-, -, hd⟩ | ⟨-, hd⟩ <;>
    cases hd.symm.trans h <;> rfl

theorem decodeRequest_eq_ok_iff : decodeRequest r = .ok i ↔ encodeRequest i = r :=
  ⟨encodeRequest_eq_of_decodeRequest_eq_ok, fun h => h ▸ decodeRequest_encodeRequest i⟩

/-- Settles O3: the decoder and the encoder are inverse to each other on the words of the table. -/
theorem decodeEncodeAgree : Obligations.DecodeEncodeAgree :=
  ⟨decodeRequest_encodeRequest, encodeRequest_fits, fun _ _ => encodeRequest_eq_of_decodeRequest_eq_ok⟩

/-- A request selects the operation of a `CMD` with its own operands exactly when it has this `CMD`. -/
theorem decodeRequest_eq_ok_iff_cmd (hf : i.fromOff = r.fromOff) (he : i.inEnd = r.inEnd) :
    decodeRequest r = .ok i ↔ r.cmd = cmdOf i := by
  obtain ⟨cmd, f, e⟩ := r
  rw [decodeRequest_eq_ok_iff, encodeRequest, hf, he, Request.mk.injEq]
  exact ⟨fun h => h.1.symm, fun h => ⟨h.symm, rfl, rfl⟩⟩

/-- The words for which a `CMD` selects an operation, as numbers (R61). -/
theorem exists_decodeRequest_eq_ok_iff : (∃ i, decodeRequest r = .ok i) ↔ r.cmd.toNat < 5 := by
  rcases decodeRequest_cases r with
    ⟨hc, hd⟩ | ⟨hc, hd⟩ | ⟨hc, hd⟩ | ⟨hc, hd⟩ | ⟨hc, hd⟩ | ⟨hc, -, hd⟩ | ⟨hc, hd⟩
  iterate 5 simp [hd, hc]
  · have hge : ¬ r.cmd.toNat < 5 := by omega
    simp [hd, hge]
  · have hge : ¬ r.cmd.toNat < 5 := by omega
    simp [hd, hge]

/-- The fields of a `CMD` that selects an operation (R61). -/
theorem fields_of_cmd_lt_five (c : BitVec 32) : rsvField c = 0#29 ∧ (opField c).toNat < 5 ↔ c.toNat < 5 := by
  rw [rsvField_eq_zero, opField_toNat]
  omega

/-- Settles O2: the decoder's answers are the words of the encoder, and `CMD[31:3]` and `CMD[2:0]` are quotient and rest of
the word by 8. -/
theorem cmdSelectsByTheTable : Obligations.CmdSelectsByTheTable := fun r =>
  ⟨decodeRequest_eq_ok_iff_cmd rfl rfl, decodeRequest_eq_ok_iff_cmd rfl rfl, decodeRequest_eq_ok_iff_cmd rfl rfl,
    decodeRequest_eq_ok_iff_cmd rfl rfl, decodeRequest_eq_ok_iff_cmd rfl rfl,
    exists_decodeRequest_eq_ok_iff.trans (fields_of_cmd_lt_five r.cmd).symm⟩

/-- Settles O1: each word is evaluated by the decoder. -/
theorem tableWordsDecode : Obligations.TableWordsDecode :=
  ⟨rfl, rfl, rfl, rfl, rfl, rfl, rfl, rfl, rfl⟩

end Sys2Proof.Machine
end

section
/-! ## The written form of an operation (spec/30_encoding.md R64) -/

namespace Sys2Proof.Machine

/-- The first `c` cuts what stands before it from what stands after it. -/
theorem cutAt_append_cons {c : Char} {p : List Char} (hp : c ∉ p) (q : List Char) :
    cutAt c (p ++ c :: q) = some (p, q) := by
  induction p with
  | nil => simp [cutAt]
  | cons d ds ih =>
    obtain ⟨hd, hds⟩ := not_or.mp (mt List.mem_cons.mpr hp)
    rw [List.cons_append, cutAt, if_neg (Ne.symm hd), ih hds]
    rfl

theorem digitValue_digitChar {d : Nat} (h : d < 10) : digitValue 10 (Nat.digitChar d) = some d := by
  revert d
  decide

theorem digitsFrom_append (base acc : Nat) (cs ds : List Char) :
    digitsFrom base acc (cs ++ ds) = (digitsFrom base acc cs).bind fun n => digitsFrom base n ds := by
  induction cs generalizing acc with
  | nil => rfl
  | cons c cs ih => simp [digitsFrom, ih, Option.bind_assoc]

theorem digitsFrom_toDigits (n : Nat) : digitsFrom 10 0 (Nat.toDigits 10 n) = some n := by
  induction n using Nat.strong_induction_on with
  | h n ih =>
    rcases Nat.lt_or_ge n 10 with hn | hn
    · simp [Nat.toDigits_of_lt_base hn, digitsFrom, digitValue_digitChar hn]
    · have hdigit := digitValue_digitChar (Nat.mod_lt n (by decide : 10 > 0))
      rw [Nat.toDigits_of_base_le (by decide) hn, digitsFrom_append, ih _ (Nat.div_lt_self (by omega) (by decide))]
      simp [digitsFrom, hdigit, Nat.div_add_mod']

/-- A character that is no digit is not in a decimal number. -/
theorem notMem_toDigits {c : Char} (hc : c.isDigit = false) (n : Nat) : c ∉ Nat.toDigits 10 n := fun h =>
  Bool.false_ne_true (hc.symm.trans (Nat.isDigit_of_mem_toDigits (by decide) (by decide) h))

/-- Without an `x` a number is read as a decimal one. -/
theorem readNumber_of_notMem {cs : List Char} (hne : cs ≠ []) (hx : 'x' ∉ cs) : readNumber cs = digitsFrom 10 0 cs := by
  unfold readNumber
  split
  · exact absurd rfl hne
  · simp at hx
  · simp at hx
  · rfl

theorem readNumber_toDigits (n : Nat) : readNumber (Nat.toDigits 10 n) = some n := by
  rw [readNumber_of_notMem Nat.toDigits_ne_nil (notMem_toDigits (by decide) n), digitsFrom_toDigits]

theorem space_notMem_mnemonicOf (i : Instr) : ' ' ∉ mnemonicOf i := by
  cases i <;> simp [mnemonicOf]

theorem ofMnemonic_mnemonicOf (i : Instr) : ofMnemonic (mnemonicOf i) i.fromOff i.inEnd = some i := by
  cases i <;> rfl

/-- Settles O4: the space and the comma cut the text where the writer put them, since neither the mnemonic has a space nor a
number a comma, and the digits are read back. -/
theorem listingReadsWhatItWrites : Obligations.ListingReadsWhatItWrites := by
  intro i
  have hmnemonic := cutAt_append_cons (space_notMem_mnemonicOf i)
    (Nat.toDigits 10 i.fromOff ++ ',' :: ' ' :: Nat.toDigits 10 i.inEnd)
  have hoperands := cutAt_append_cons (notMem_toDigits (c := ',') (by decide) i.fromOff)
    (' ' :: Nat.toDigits 10 i.inEnd)
  rw [writeInstr, List.append_assoc, List.cons_append, readInstr, hmnemonic]
  simp only [hoperands, readNumber_toDigits, ofMnemonic_mnemonicOf]

end Sys2Proof.Machine
end

section
/-! ## Requests that end before an operation starts (spec/30_encoding.md R62, spec/60_exceptions.md R170) -/

namespace Sys2Proof.Machine

variable {s : State} {r : Request} {o : Host.Outcome State Fault Refusal}

/-- A `CMD` with a reserved `OP` or a reserved bit selects no operation (R61, R62). -/
theorem decodeRequest_ne_ok_of_reserved (h : 5 ≤ (opField r.cmd).toNat ∨ rsvField r.cmd ≠ 0#29) (i : Instr) :
    decodeRequest r ≠ .ok i := by
  intro hd
  obtain ⟨hrsv, hop⟩ := (fields_of_cmd_lt_five r.cmd).mpr (exists_decodeRequest_eq_ok_iff.mp ⟨i, hd⟩)
  exact h.elim (fun hge => by omega) (fun hne => hne hrsv)

/-- A request that selects no operation ends with `ILLEGAL_OP` (R170). -/
theorem serve_of_decodeRequest_ne_ok (hr : s.request = some r) (h : ∀ i, decodeRequest r ≠ .ok i) :
    serve s = .next (s.finishOnly .illegalOp) := by
  cases hd : decodeRequest r with
  | ok i => exact absurd hd (h i)
  | error d => exact serve_of_decodeRequest_eq_error hr hd

/-- A request that selects an operation ends early as its configuration and its operands say (R170). -/
theorem serve_of_earlyEnd (hr : s.request = some r) (h : ∃ i, decodeRequest r = .ok i)
    (ho : earlyEnd s r.fromOff r.inEnd = some o) : serve s = o := by
  obtain ⟨i, hd⟩ := h
  obtain ⟨hf, he⟩ := operands_of_decodeRequest_eq_ok hd
  rw [serve_of_decodeRequest_eq_ok hr hd, exec_of_earlyEnd (by rwa [hf, he])]

/-- Settles O8: no operation is selected, so the block finishes with `ILLEGAL_OP` and nothing else. -/
theorem reservedCmdPerformsNothing : Obligations.ReservedCmdPerformsNothing := by
  intro s r hok hh hr hreserved
  rw [step_of_host_eq_nil hok hh, serve_of_decodeRequest_ne_ok hr (decodeRequest_ne_ok_of_reserved hreserved)]
  rfl

theorem step_of_host_eq_cons {m : HostMove} {ms : List HostMove} (hok : s.params.ok = true) (hh : s.host = m :: ms) :
    step s = hostAct m { s with host := ms } := by
  simp only [step, cycle, if_pos hok, nextMove, hh]

theorem hostIssue_of_fits (hr : s.request = none) (hfit : r.fits s.params = true) :
    hostIssue r s = .next { s with request := some r } := by
  simp [hostIssue, hr, hfit]

/-- Settles O57: the host's `wait` is the block's move, which ends the request with the first check that fails; and the
issue of a reserved `CMD` only latches it. -/
theorem awaitedChecksEndTheRequest : Obligations.AwaitedChecksEndTheRequest := by
  intro s r ms hok
  refine ⟨fun hr hh => ?_, fun hr hh hfit hreserved => ?_⟩
  · have hwait : step s = serve { s with host := ms } := step_of_host_eq_cons hok hh
    rw [hwait]
    exact ⟨serve_of_decodeRequest_ne_ok hr,
      fun hi hlong => serve_of_earlyEnd hr hi (earlyEnd_of_tooLong hok hlong),
      fun hi hle hoff => serve_of_earlyEnd hr hi (earlyEnd_of_badOffset hok hle hoff)⟩
  · have hlatch : step s = .next { s with host := .wait :: ms, request := some r } :=
      (step_of_host_eq_cons hok hh).trans (hostIssue_of_fits hr hfit)
    have hwait : step { s with host := .wait :: ms, request := some r } = serve { s with host := ms, request := some r } :=
      step_of_host_eq_cons (s := { s with host := .wait :: ms, request := some r }) hok rfl
    exact ⟨_, hlatch, rfl, hwait.trans
      (serve_of_decodeRequest_ne_ok rfl (decodeRequest_ne_ok_of_reserved hreserved))⟩

end Sys2Proof.Machine
end

section
/-! ## The zero byte of a frame and its length (spec/30_encoding.md R67, R69, R70) -/

namespace Sys2Proof.Machine

variable {s t : State} {bs : List Block} {f : List Byte}

theorem zero_notMem_blocksBytes (hok : ∀ b ∈ bs, b.ok = true) : zeroByte ∉ blocksBytes bs := by
  intro hz
  obtain ⟨b, hb, hz⟩ := List.mem_flatMap.mp hz
  obtain ⟨hcode, -, hlits⟩ := (Block.ok_iff b).mp (hok b hb)
  exact (List.mem_cons.mp hz).elim (fun h => hcode h.symm) hlits

/-- A well-formed frame is a zero-free body and the delimiter (R67). -/
theorem WellFormedFrame.exists_body (hf : WellFormedFrame f) : ∃ body, f = body ++ [zeroByte] ∧ zeroByte ∉ body := by
  obtain ⟨bs, -, hok, hbytes⟩ := hf
  exact ⟨blocksBytes bs, hbytes, zero_notMem_blocksBytes hok⟩

/-- A code counts its own byte and its literals (R67). -/
theorem blocksBytes_length (hok : ∀ b ∈ bs, b.ok = true) :
    (blocksBytes bs).length = (bs.map fun b => b.code.toNat).sum := by
  induction bs with
  | nil => rfl
  | cons b bs ih =>
    obtain ⟨hb, hbs⟩ := List.forall_mem_cons.mp hok
    simp [blocksBytes_cons, ih hbs, Block.code_toNat_of_ok hb]
    omega

/-- Settles O29: no code and no literal is zero, and each code counts its block's bytes. -/
theorem wellFormedFrameShape : Obligations.WellFormedFrameShape := by
  intro bs f hf
  refine ⟨WellFormedFrame.exists_body ⟨bs, hf⟩, ?_⟩
  obtain ⟨-, hok, rfl⟩ := hf
  rw [frameBytes, List.length_append, blocksBytes_length hok, List.length_singleton, Nat.add_comm]

/-- FIND_FRAME of a window whose first zero comes after `k` bytes (R150). -/
theorem execFindFrame_of_firstZero {a e k : Nat} (ha : s.Accepts a e) (hk : firstZero (s.window a e) = some k) :
    execFindFrame a e s = .next (s.finish { Results.only .ok with start := a, endAt := a + k + 1 }) := by
  simp only [execFindFrame, earlyEnd_of_accepts ha, hk]

/-- Settles O31: the frame's delimiter is the first zero of the window. -/
theorem frameLengthIsFound : Obligations.FrameLengthIsFound := by
  intro s a e frame tl ha hf hx
  obtain ⟨body, rfl, hz⟩ := hf.exists_body
  have hk : firstZero (s.window a e) = some body.length :=
    firstZero_eq_some.mpr ⟨body, tl, by rw [window_of_holds hx, List.append_assoc, List.singleton_append], hz, rfl⟩
  rw [List.length_append, List.length_singleton, ← Nat.add_assoc]
  exact execFindFrame_of_firstZero ha hk

/-- What ENCODE gives is a zero-free body and the delimiter (R70). -/
theorem cobsEncode_exists_body (x : List Byte) : ∃ body, cobsEncode x = body ++ [zeroByte] ∧ zeroByte ∉ body := by
  obtain ⟨bs, hf, -⟩ := canonicalFrame_cobsEncode x
  exact WellFormedFrame.exists_body ⟨bs, hf⟩

theorem two_le_cobsEncode_length (x : List Byte) : 2 ≤ (cobsEncode x).length := by
  rw [cobsEncode_length, encSize]
  omega

/-- A zero-free body and a zero byte, written from address 0 on, are read back. -/
theorem read_writeBytes_body (m : Mem) {body : List Byte} (hz : zeroByte ∉ body) :
    (m.writeBytes 0 (body ++ [zeroByte])).read body.length = some zeroByte ∧
    ∀ a, a < body.length → ∃ b, (m.writeBytes 0 (body ++ [zeroByte])).read a = some b ∧ b ≠ zeroByte := by
  refine ⟨by simp [Mem.read_writeBytes], fun a ha => ⟨body[a], ?_, fun h => hz (h ▸ List.getElem_mem ha)⟩⟩
  rw [Mem.read_writeBytes, if_pos (by simp; omega), Nat.sub_zero, List.getElem?_append_left ha,
    List.getElem?_eq_getElem ha]

/-- Settles O28: an OK ENCODE commits what cobs_encode gives, a zero-free body and the delimiter. -/
theorem noZeroInTheBody : Obligations.NoZeroInTheBody := by
  intro s t f e h hok
  obtain ⟨-, hc | ⟨-, -, ⟨-, rfl⟩ | ⟨-, rfl⟩⟩⟩ := execEncode_next h
  · exact absurd hok hc.status_ne_ok
  · exact absurd hok (show Status.capacityExceeded.code ≠ 0x00#8 by decide)
  · obtain ⟨body, hbody, hz⟩ := cobsEncode_exists_body (s.window f e)
    obtain ⟨hlast, hbelow⟩ := read_writeBytes_body s.out hz
    have htwo := two_le_cobsEncode_length (s.window f e)
    simp only [State.finish_res, State.finish_out, State.commitOut_out]
    rw [hbody] at htwo ⊢
    rw [List.length_append, List.length_singleton] at htwo ⊢
    exact ⟨htwo, hlast, fun a ha => hbelow a (Nat.lt_of_succ_lt_succ ha)⟩

end Sys2Proof.Machine
end

section
/-! ## The encoder's block-length counter (spec/40_encode.md R100, R101) -/

namespace Sys2Proof.Machine

/-- The counter of an open block of `n` literals, which is `n + 1` and has not wrapped (R101). -/
theorem encShape_c_toNat (pre : List Byte) {p : List Byte} (hp : p.length ≤ 254) :
    (encShape pre p).c.toNat = p.length + 1 := code_toNat hp

theorem encShape_nil_c (pre : List Byte) : (encShape pre []).c = 1#8 := rfl

/-- The counter is the distance from the saved code slot to the end of the output (R101). -/
theorem encShape_y_length (pre p : List Byte) :
    (encShape pre p).y.length = (encShape pre p).codeIdx + (p.length + 1) := by
  simp [encShape]

/-- Settles O23: between two bytes the open block holds at most 253 literals (`foldl_encStep_shape`), and the counter is one
more than their number. -/
theorem blockCounterNeverWraps : Obligations.BlockCounterNeverWraps := by
  intro x b
  obtain ⟨pre, p, hshape, hp⟩ := foldl_encStep_shape x [] [] (by simp)
  rw [← encStart_eq] at hshape
  have hc := encShape_c_toNat pre (p := p) (by omega)
  have hc' : (encShape pre (p ++ [b])).c.toNat = p.length + 1 + 1 := by
    rw [encShape_c_toNat pre (by simp; omega), List.length_append, List.length_singleton]
  simp only [hshape, hc]
  refine ⟨by omega, by omega, (encShape_y_length pre p).symm, fun hb => ?_, fun hend => ?_, fun hb hlt => ?_⟩
  · rw [encCopy_shape pre p hb, hc']
    exact ⟨rfl, by omega⟩
  · by_cases hb : b = zeroByte
    · rw [hb, encStep_zero, encShape_nil_c]
    · rw [encStep_full pre p hb (by have := hend.resolve_left hb; omega), encShape_nil_c]
  · rw [encStep_lit pre p hb (by omega), hc']

end Sys2Proof.Machine
end

section
/-! ## The zero-free segments and the encoded length (spec/40_encode.md R102, R107, R108) -/

namespace Sys2Proof.Machine

variable {b : Byte} {x s : List Byte}

theorem segments_zero_cons (x : List Byte) : segments (zeroByte :: x) = [] :: segments x := if_pos rfl

/-- A byte that is not zero joins the first segment, and there is one. -/
theorem segments_cons_of_ne (x : List Byte) (hb : b ≠ zeroByte) :
    ∃ s ss, segments x = s :: ss ∧ segments (b :: x) = (b :: s) :: ss := by
  obtain ⟨s, ss, hs⟩ := List.exists_cons_of_ne_nil (segments_ne_nil x)
  exact ⟨s, ss, hs, segments_append (p := [b]) (by simpa using Ne.symm hb) hs⟩

/-- There is one segment more than there are zero bytes (R102). -/
theorem segments_length (x : List Byte) : (segments x).length = x.count zeroByte + 1 := by
  induction x with
  | nil => rfl
  | cons b bs ih =>
    by_cases hb : b = zeroByte
    · subst hb
      rw [segments_zero_cons, List.length_cons, ih, List.count_cons_self]
    · obtain ⟨s, ss, hs, hcons⟩ := segments_cons_of_ne bs hb
      rw [hs] at ih
      rw [hcons, List.count_cons_of_ne hb, ← ih, List.length_cons, List.length_cons]

/-- No segment has a zero byte (R102). -/
theorem zero_notMem_of_mem_segments (h : s ∈ segments x) : zeroByte ∉ s := by
  induction x generalizing s with
  | nil =>
    rw [List.mem_singleton.mp h]
    exact List.not_mem_nil
  | cons b bs ih =>
    by_cases hb : b = zeroByte
    · rw [hb, segments_zero_cons] at h
      obtain rfl | h := List.mem_cons.mp h
      · exact List.not_mem_nil
      · exact ih h
    · obtain ⟨s', ss, hs, hcons⟩ := segments_cons_of_ne bs hb
      rw [hs] at ih
      rw [hcons] at h
      obtain rfl | h := List.mem_cons.mp h
      · simpa [Ne.symm hb] using ih List.mem_cons_self
      · exact ih (List.mem_cons_of_mem s' h)

/-- The segments joined by zero bytes are the input (R102). -/
theorem intercalate_segments (x : List Byte) : List.intercalate [zeroByte] (segments x) = x := by
  induction x with
  | nil => rfl
  | cons b bs ih =>
    by_cases hb : b = zeroByte
    · obtain ⟨s, ss, hs⟩ := List.exists_cons_of_ne_nil (segments_ne_nil bs)
      rw [hb, segments_zero_cons, hs, List.intercalate_cons_cons, ← hs, ih]
      rfl
    · obtain ⟨s, ss, hs, hcons⟩ := segments_cons_of_ne bs hb
      rw [hs] at ih
      rw [hcons]
      cases ss with
      | nil => simpa using ih
      | cons s' ss => simpa using ih

/-- Settles O24: the encoder's length is `cobsEncode_length`; the segments are those between the zero bytes. -/
theorem encodedLength : Obligations.EncodedLength := fun x =>
  ⟨(cobsEncode_length x).symm, cobsEncode_length x, segments_length x, fun _ => zero_notMem_of_mem_segments,
    intercalate_segments x⟩

/-- Without a zero byte the input is its one segment. -/
theorem segments_of_zero_notMem (hz : zeroByte ∉ x) : segments x = [x] := by
  simpa using segments_append hz (x := []) rfl

/-- ENC_SIZE of a zero-free input is ENC_BOUND (R107). -/
theorem encSize_of_zero_notMem (hz : zeroByte ∉ x) : encSize x = encBound x.length := by
  simp [encSize, encBound, segments_of_zero_notMem hz]

/-- Settles O26: full blocks counted by segment are no more than those of the whole input, and as many where it is one
segment; the source's expression rounds up where the bound rounds down. -/
theorem boundIsTight : Obligations.BoundIsTight :=
  ⟨encSize_le_encBound, fun _ => encSize_of_zero_notMem, fun n hn => by omega, fun n hn => by omega⟩

/-- ENC_SIZE is `n + 2` exactly when no segment fills a block (R108). -/
theorem encSize_eq_iff : encSize x = x.length + 2 ↔ ∀ s ∈ segments x, s.length < 254 := by
  simp [encSize, List.sum_eq_zero_iff]

/-- Settles O27: every segment of 254 bytes or more adds to `n + 2`; and what ENCODE commits fits OUT. -/
theorem originalEstimateUndercounts : Obligations.OriginalEstimateUndercounts := by
  refine ⟨fun x => ⟨eq_comm.trans encSize_eq_iff, fun ⟨s, hs, hfull⟩ => ?_⟩, fun s t f e h a ha => ?_⟩
  · have hne : encSize x ≠ x.length + 2 := fun heq => absurd (encSize_eq_iff.mp heq s hs) (Nat.not_lt.mpr hfull)
    have hle : x.length + 2 ≤ encSize x := Nat.le_add_right _ _
    omega
  · obtain ⟨-, -, -, habove, hcap, -⟩ := onlyTheResultIsWritten s t _ h
    exact habove a (hcap.trans ha)

end Sys2Proof.Machine
end

section
/-! ## What the encoder's operations answer (spec/40_encode.md R104 to R106) -/

namespace Sys2Proof.Machine

variable {s : State} {f e : Nat} {x : List Byte}

/-- Every operation begins with the common checks (R170). -/
theorem runsCommonChecks_of_ok (hok : s.params.ok = true) (i : Instr) : s.RunsCommonChecks i :=
  ⟨fun hlong => exec_of_earlyEnd (earlyEnd_of_tooLong hok hlong),
    fun hle hoff => exec_of_earlyEnd (earlyEnd_of_badOffset hok hle hoff)⟩

/-- After a commit OUT holds the committed bytes and is as before from there on (R42). -/
theorem outIs_commitOut_finish (s : State) (y : List Byte) (r : Results) : ((s.commitOut y).finish r).OutIs s y :=
  ⟨fun j hj => by simpa using s.out.read_writeBytes_in 0 y j hj,
    fun a ha => s.out.read_writeBytes_out 0 y a (.inr (by omega))⟩

theorem execEncode_of_tooLong (ha : s.Accepts f e) (hx : s.HoldsWindow f e x)
    (hlong : s.params.outCap < (cobsEncode x).length) :
    execEncode f e s = .next (s.finishOnly .capacityExceeded) :=
  (execEncode_of_holds ha hx).trans (if_pos hlong)

theorem execEncode_of_fits (ha : s.Accepts f e) (hx : s.HoldsWindow f e x)
    (hfit : (cobsEncode x).length ≤ s.params.outCap) :
    execEncode f e s =
      .next ((s.commitOut (cobsEncode x)).finish { Results.only .ok with outLen := (cobsEncode x).length }) :=
  (execEncode_of_holds ha hx).trans (if_neg (Nat.not_lt.mpr hfit))

/-- ENC_SIZE of the window `x` (R105). -/
theorem execEncSize_of_holds (ha : s.Accepts f e) (hx : s.HoldsWindow f e x) :
    execEncSize f e s = .next (s.finish { Results.only .ok with size := encSize x }) := by
  simp only [execEncSize, earlyEnd_of_accepts ha, window_of_holds hx, windowWritten_of_holds hx, if_true]

/-- ENC_BOUND of accepted operands (R106). -/
theorem execEncBound_of_accepts (ha : s.Accepts f e) :
    execEncBound f e s = .next (s.finish { Results.only .ok with size := encBound (e - f) }) := by
  simp only [execEncBound, earlyEnd_of_accepts ha, windowLen]

/-- Settles O13: ENCODE is turned away, or commits cobs_encode of its window and finishes. -/
theorem encodeWritesTheFrame : Obligations.EncodeWritesTheFrame :=
  ⟨fun f e => decodeRequest_encodeRequest (.encode f e), fun _ f e hok => runsCommonChecks_of_ok hok (.encode f e),
    fun s _ _ x ha hx =>
      ⟨execEncode_of_tooLong ha hx, fun hfit =>
        ⟨_, execEncode_of_fits ha hx hfit, rfl, outIs_commitOut_finish s _ _, rfl,
          s.commitOut_finish_sameOutside (cobsEncode x) _⟩⟩⟩

/-- Settles O14: ENC_SIZE finishes with the size of R102, which `cobsEncode_length` gives for what ENCODE writes. -/
theorem encSizeGivesTheExactSize : Obligations.EncSizeGivesTheExactSize :=
  ⟨fun f e => decodeRequest_encodeRequest (.encSize f e), fun _ f e hok => runsCommonChecks_of_ok hok (.encSize f e),
    fun _ _ _ x ha hx => ⟨execEncSize_of_holds ha hx, (cobsEncode_length x).symm⟩⟩

/-- Settles O15: ENC_BOUND finishes with the bound of the window's length, which is at most that of `N_MAX`, and this fits by
R6. -/
theorem encBoundGivesTheBound : Obligations.EncBoundGivesTheBound := by
  refine ⟨fun f e => decodeRequest_encodeRequest (.encBound f e),
    fun _ f e hok => runsCommonChecks_of_ok hok (.encBound f e), fun s f e ha => ⟨execEncBound_of_accepts ha, ?_, ?_⟩⟩
  · obtain ⟨-, he, -⟩ := ha
    exact encBound_mono (by omega : e - f ≤ s.params.nMax)
  · exact (Params.ok_iff s.params).mp ha.1

end Sys2Proof.Machine
end

section
/-! ## Decoding what was encoded (spec/40_encode.md R103, spec/41_decode.md R135) -/

namespace Sys2Proof.Machine

/-- What the encoder's blocks decode to is the encoder's input (R66). -/
theorem blocksContent_encBlocks (x : List Byte) : blocksContent (encBlocks [] x) = x :=
  encBlocks_content fullCode [] x (by simp)

/-- Decoding what was encoded gives it back, whatever follows it (R103, R132). -/
theorem cobsDecode_cobsEncode_append (x tl : List Byte) :
    cobsDecode (cobsEncode x ++ tl) = ⟨x, true, false, (cobsEncode x).length⟩ := by
  rw [cobsEncode_eq_frame, cobsDecode_frameBytes_append (encBlocks_ok [] x (by simp) (by simp)),
    blocksContent_encBlocks]

theorem cobsDecode_cobsEncode (x : List Byte) :
    cobsDecode (cobsEncode x) = ⟨x, true, false, (cobsEncode x).length⟩ := by
  simpa using cobsDecode_cobsEncode_append x []

/-- Settles O25: the encoder's output is the frame of its blocks, which the decoder reads block by block. -/
theorem encodeOutputProperties : Obligations.EncodeOutputProperties := fun x =>
  ⟨cobsEncode_exists_body x, canonicalFrame_cobsEncode x, cobsDecode_cobsEncode x⟩

theorem length_le_cobsEncode_length (x : List Byte) : x.length ≤ (cobsEncode x).length := by
  rw [cobsEncode_length, encSize, Nat.add_assoc]
  exact Nat.le_add_right _ _

/-- DECODE of a window that is the encoding of `x` commits `x`, if it fits OUT (R103, R135). -/
theorem execDecode_of_encoded {s : State} {b e : Nat} {x : List Byte} (ha : s.Accepts b e)
    (hy : s.HoldsWindow b e (cobsEncode x)) (hfit : x.length ≤ s.params.outCap) :
    execDecode b e s = .next ((s.commitOut x).finish
      { Results.only .ok with outLen := x.length, consumed := (cobsEncode x).length, flags := 0x01#8 }) := by
  obtain ⟨hlen, hin⟩ := hy
  have hflags : decodeFlags true false = 0x01#8 := by decide
  rw [execDecode_of_inputAt ha hin hlen.le (.inr hlen), cobsDecode_cobsEncode]
  simp only [hflags, if_neg (Nat.not_lt.mpr hfit)]

/-- Settles O54: ENCODE commits and completes, so the host's write of the encoding is accepted; and DECODE of the window that
then holds it gives back `x` (`execDecode_of_encoded`). -/
theorem roundTripThroughTheMachine : Obligations.RoundTripThroughTheMachine := by
  intro s f e b x ha hx hcap hfit
  have hlen := length_le_cobsEncode_length x
  refine ⟨_, _, _, execEncode_of_fits ha hx hcap, hostWriteIn_of_fits rfl hfit, execDecode_of_encoded ?_ ?_ ?_,
    outIs_commitOut_finish _ x _, rfl⟩
  · exact ⟨ha.1, hfit, Nat.le_add_right b _⟩
  · exact ⟨(Nat.add_sub_cancel_left ..).symm, fun j hj => Mem.read_writeBytes_in s.inp b (cobsEncode x) j hj⟩
  · exact hlen.trans hcap

end Sys2Proof.Machine
end

section
/-! ## How long the decoder's output is (spec/41_decode.md R134) -/

namespace Sys2Proof.Machine

variable {bs : List Block}

/-- Every byte the decoder gives takes one that it reads, and so does the zero that stops it. -/
theorem decodeFrom_length_add_term_le_used (prev : Byte) (left : Nat) (x : List Byte) :
    (decodeFrom prev left x).y.length + (decodeFrom prev left x).term.toNat ≤ (decodeFrom prev left x).used := by
  induction x generalizing prev left with
  | nil => simp [decodeFrom]
  | cons b bs ih =>
    rw [decodeFrom]
    split
    · split
      · simp
      · have hrest := ih b (b.toNat - 1)
        dsimp only
        split
        · rw [List.length_cons]; omega
        · omega
    · split
      · simp
      · have hrest := ih prev (left - 1)
        dsimp only
        rw [List.length_cons]; omega

/-- The first code byte gives no byte either, since no implicit zero comes before the first block (R134). -/
theorem cobsDecode_length_le (x : List Byte) :
    (cobsDecode x).y.length ≤ (cobsDecode x).used - 1 - (cobsDecode x).term.toNat := by
  cases x with
  | nil => simp [cobsDecode]
  | cons c x =>
    by_cases hc : c = zeroByte
    · simp [hc, cobsDecode]
    · have hrest := decodeFrom_length_add_term_le_used c (c.toNat - 1) x
      have hfirst : cobsDecode (c :: x) =
          { decodeFrom c (c.toNat - 1) x with used := (decodeFrom c (c.toNat - 1) x).used + 1 } := by
        simp [cobsDecode, decodeFrom, hc]
      rw [hfirst]
      dsimp only
      omega

/-- The decoder never expands its input: it gives at least one byte fewer than it has, or none (R134). -/
theorem cobsDecode_length_le_pred (x : List Byte) : (cobsDecode x).y.length ≤ x.length - 1 := by
  have hlen := cobsDecode_length_le x
  have hused : (cobsDecode x).used ≤ x.length := decodeFrom_used_le fullCode 0 x
  omega

/-- Decoding a frame drops its delimiter and a byte of each block: the code, in exchange for the implicit zero where there is
one. The last block and the full ones before it give none (R134). -/
theorem blocksContent_length (hne : bs ≠ []) (hok : ∀ b ∈ bs, b.ok = true) :
    (blocksContent bs).length + 2 + bs.dropLast.countP (fun b => b.code = fullCode) = (frameBytes bs).length := by
  induction bs with
  | nil => exact absurd rfl hne
  | cons b bs ih =>
    obtain ⟨-, hbs⟩ := List.forall_mem_cons.mp hok
    cases bs with
    | nil => simp [blocksContent, contentAfter, frameBytes, blocksBytes, Block.bytes]
    | cons c cs =>
      have hrest := ih (List.cons_ne_nil c cs) hbs
      rw [frameBytes_cons, blocksContent_cons_cons, List.dropLast_cons_cons, List.countP_cons]
      simp only [List.length_append, List.length_cons, decide_eq_true_eq]
      by_cases hfull : b.code = fullCode
      · simp [hfull]; omega
      · simp [hfull]; omega

end Sys2Proof.Machine
end

section
/-! ## What the decoder's input can be (spec/41_decode.md R131 to R133) -/

namespace Sys2Proof.Machine

variable {bs : List Block} {b : Block} {c : Byte} {f x : List Byte}

/-- A block with fewer literals than its code says (R133 (a), (b)). -/
def Block.CutShort (b : Block) : Prop :=
  b.code ≠ zeroByte ∧ zeroByte ∉ b.lits ∧ b.lits.length < b.code.toNat - 1

/-- What can follow the last whole block of the decoder's input: nothing, the delimiter and whatever comes after it, or a
block cut short by the end of the input or by a zero (R133 (a) to (d)). -/
inductive StopsDecoder : List Byte → Prop
  | exhausted : StopsDecoder []
  | delimiter (tl : List Byte) : StopsDecoder (zeroByte :: tl)
  | cutByEnd {b : Block} (hb : b.CutShort) : StopsDecoder b.bytes
  | cutByZero {b : Block} (hb : b.CutShort) (tl : List Byte) : StopsDecoder (b.bytes ++ zeroByte :: tl)

/-- After a code byte comes the rest of its block, or the decoder stops in it. -/
theorem exists_block_or_stopsDecoder (hc : c ≠ zeroByte) (x : List Byte) :
    (∃ (b : Block) (tl : List Byte), b.ok = true ∧ c :: x = b.bytes ++ tl) ∨ StopsDecoder (c :: x) := by
  cases hfirst : firstZero (x.take (c.toNat - 1)) with
  | some k =>
    obtain ⟨p, q, hp, hz, -⟩ := firstZero_eq_some.mp hfirst
    have hlen : p.length < c.toNat - 1 := by
      have htake := List.length_take_le (c.toNat - 1) x
      simp only [hp, List.length_append, List.length_cons] at htake
      omega
    have hx : c :: x = Block.bytes ⟨c, p⟩ ++ zeroByte :: (q ++ x.drop (c.toNat - 1)) := by
      conv_lhs => rw [← List.take_append_drop (c.toNat - 1) x, hp]
      simp [Block.bytes]
    rw [hx]
    exact .inr (.cutByZero ⟨hc, hz, hlen⟩ _)
  | none =>
    have hz := firstZero_eq_none.mp hfirst
    rcases Nat.lt_or_ge x.length (c.toNat - 1) with hlt | hge
    · rw [List.take_of_length_le hlt.le] at hz
      exact .inr (.cutByEnd (b := ⟨c, x⟩) ⟨hc, hz, hlt⟩)
    · exact .inl ⟨⟨c, x.take (c.toNat - 1)⟩, x.drop (c.toNat - 1),
        (Block.ok_iff _).mpr ⟨hc, List.length_take_of_le hge, hz⟩, by simp [Block.bytes]⟩

/-- Every byte sequence is whole blocks and something that stops the decoder (R133). -/
theorem exists_blocks_append_stopsDecoder (x : List Byte) :
    ∃ (bs : List Block) (rest : List Byte), (∀ b ∈ bs, b.ok = true) ∧ StopsDecoder rest ∧ x = blocksBytes bs ++ rest := by
  induction hn : x.length using Nat.strong_induction_on generalizing x with
  | _ n ih =>
    cases x with
    | nil => exact ⟨[], [], by simp, .exhausted, rfl⟩
    | cons c x =>
      by_cases hc : c = zeroByte
      · exact ⟨[], _, by simp, hc ▸ .delimiter x, rfl⟩
      · obtain ⟨b, tl, hb, hx⟩ | hstop := exists_block_or_stopsDecoder hc x
        · have hlt : tl.length < n := by rw [← hn, hx]; simp [Block.bytes]
          obtain ⟨bs, rest, hbs, hrest, rfl⟩ := ih tl.length hlt tl rfl
          exact ⟨b :: bs, rest, List.forall_mem_cons.mpr ⟨hb, hbs⟩, hrest, by simp [hx, blocksBytes]⟩
        · exact ⟨[], _, by simp, hstop, rfl⟩

/-- The decoder over a code byte and the literals before the last `k` of its block. -/
theorem decodeFrom_bytes_append (prev : Byte) {k : Nat} (hc : b.code ≠ zeroByte) (hz : zeroByte ∉ b.lits)
    (hk : b.code.toNat - 1 = b.lits.length + k) (tl : List Byte) :
    decodeFrom prev 0 (b.bytes ++ tl) =
      { decodeFrom b.code k tl with
        y := contentAfter prev [b] ++ (decodeFrom b.code k tl).y
        used := b.bytes.length + (decodeFrom b.code k tl).used } := by
  rw [Block.bytes, List.cons_append, decodeFrom, if_pos rfl, if_neg hc, hk, decodeFrom_lits b.code k b.lits tl hz]
  by_cases hfull : prev = fullCode
  · simp [contentAfter, hfull, Nat.add_right_comm]
  · simp [contentAfter, hfull, Nat.add_right_comm]

/-- The decoder over a block cut short: its literals are kept, and the decoder stops inside it (R133 (a), (b)). -/
theorem decodeFrom_cutShort (prev : Byte) (hb : b.CutShort) :
    decodeFrom prev 0 b.bytes = ⟨contentAfter prev [b], false, true, b.bytes.length⟩ ∧
    ∀ tl, decodeFrom prev 0 (b.bytes ++ zeroByte :: tl) =
      ⟨contentAfter prev [b], true, true, b.bytes.length + 1⟩ := by
  obtain ⟨hc, hz, hlt⟩ := hb
  obtain ⟨k, hk⟩ := Nat.exists_eq_add_of_lt hlt
  have hbytes := decodeFrom_bytes_append prev hc hz (k := k + 1) hk
  exact ⟨by simpa [decodeFrom] using hbytes [], fun tl => by simpa [decodeFrom] using hbytes (zeroByte :: tl)⟩

section
variable (hok : ∀ b ∈ bs, b.ok = true)
include hok

/-- Input exhausted at a code position (R133 (c)). -/
theorem cobsDecode_blocksBytes :
    cobsDecode (blocksBytes bs) = ⟨blocksContent bs, false, false, (blocksBytes bs).length⟩ := by
  simpa [cobsDecode, blocksContent] using decodeFrom_blocks fullCode bs [] hok

/-- A zero in a literal position (R133 (a)). -/
theorem cobsDecode_cutByZero (hb : b.CutShort) (tl : List Byte) :
    cobsDecode (blocksBytes bs ++ b.bytes ++ zeroByte :: tl) =
      ⟨blocksContent (bs ++ [b]), true, true, (blocksBytes bs).length + (b.bytes.length + 1)⟩ := by
  rw [cobsDecode, List.append_assoc, decodeFrom_blocks fullCode bs _ hok, (decodeFrom_cutShort _ hb).2, blocksContent,
    contentAfter_append]

/-- Input exhausted inside a block (R133 (b)). -/
theorem cobsDecode_cutByEnd (hb : b.CutShort) :
    cobsDecode (blocksBytes bs ++ b.bytes) =
      ⟨blocksContent (bs ++ [b]), false, true, (blocksBytes bs).length + b.bytes.length⟩ := by
  rw [cobsDecode, decodeFrom_blocks fullCode bs _ hok, (decodeFrom_cutShort _ hb).1, blocksContent, contentAfter_append]

end

/-- A well-formed frame is read whole, and no flag but `term` is set (R131, R132). -/
theorem FrameOf.cobsDecode_eq (hf : FrameOf bs f) : cobsDecode f = ⟨blocksContent bs, true, false, f.length⟩ := by
  obtain ⟨-, hok, rfl⟩ := hf
  simpa using cobsDecode_frameBytes_append hok []

/-- Decoding stopped on a zero exactly when the last byte read is one (R131). -/
theorem cobsDecode_term_iff :
    (cobsDecode x).term = true ↔ ∃ k, (cobsDecode x).used = k + 1 ∧ x[k]? = some zeroByte := by
  rw [cobsDecode_term, cobsDecode_used]
  cases hfirst : firstZero x with
  | none =>
    refine iff_of_false Bool.false_ne_true fun ⟨k, _, hk⟩ => ?_
    exact firstZero_eq_none.mp hfirst (List.mem_of_getElem? hk)
  | some k =>
    obtain ⟨p, q, rfl, -, rfl⟩ := firstZero_eq_some.mp hfirst
    exact iff_of_true rfl ⟨p.length, rfl, by simp⟩

/-- Decoding stopped inside a block exactly when the bytes read are whole blocks, a block cut short and the zero that cut
it, if one did (R131). -/
theorem cobsDecode_short_iff :
    (cobsDecode x).short = true ↔
      ∃ (bs : List Block) (b : Block), (∀ b ∈ bs, b.ok = true) ∧ b.CutShort ∧
        x.take (cobsDecode x).used =
          blocksBytes bs ++ b.bytes ++ (if (cobsDecode x).term then [zeroByte] else []) := by
  constructor
  · intro hshort
    obtain ⟨bs, rest, hok, hstop, rfl⟩ := exists_blocks_append_stopsDecoder x
    cases hstop with
    | exhausted => simp [cobsDecode_blocksBytes hok] at hshort
    | delimiter tl =>
      have hdec := cobsDecode_frameBytes_append hok tl
      rw [frameBytes, List.append_assoc, List.singleton_append] at hdec
      simp [hdec] at hshort
    | @cutByEnd b hb =>
      refine ⟨bs, b, hok, hb, ?_⟩
      rw [cobsDecode_cutByEnd hok hb, ← List.length_append, List.take_length]
      simp
    | @cutByZero b hb tl =>
      refine ⟨bs, b, hok, hb, ?_⟩
      rw [← List.append_assoc, cobsDecode_cutByZero hok hb tl, List.append_cons _ zeroByte tl, if_pos rfl]
      exact List.take_left' (by simp)
  · rintro ⟨bs, b, hok, hb, htake⟩
    rw [← cobsDecode_take_used x, htake]
    split
    · rw [cobsDecode_cutByZero hok hb []]
    · rw [List.append_nil, cobsDecode_cutByEnd hok hb]

/-- Once a zero has stopped the decoder, what follows the bytes read may be anything (R132). -/
theorem cobsDecode_take_used_append (hterm : (cobsDecode x).term = true) (tl : List Byte) :
    cobsDecode (x.take (cobsDecode x).used ++ tl) = cobsDecode x := by
  have htake := cobsDecode_take_used x
  have hstop : (cobsDecode (x.take (cobsDecode x).used)).term = true := by rwa [htake]
  exact (decodeFrom_append fullCode 0 _ tl hstop).trans htake

end Sys2Proof.Machine
end

section
/-! ## What DECODE answers (spec/41_decode.md R131 to R136) -/

namespace Sys2Proof.Machine

variable {s t : State} {f e : Nat} {x : List Byte}

theorem flagTerm_decodeFlags (term short : Bool) : flagTerm (decodeFlags term short) = term := by
  revert term short; decide

theorem flagShort_decodeFlags (term short : Bool) : flagShort (decodeFlags term short) = short := by
  revert term short; decide

section
variable (ha : s.Accepts f e) (hx : s.InputAt f x) (hlen : x.length ≤ e - f)
  (hstop : (cobsDecode x).term = true ∨ x.length = e - f)
include ha hx hlen hstop

theorem execDecode_of_tooLong (hlong : s.params.outCap < (cobsDecode x).y.length) :
    execDecode f e s = .next (s.finishOnly .capacityExceeded) :=
  (execDecode_of_inputAt ha hx hlen hstop).trans (if_pos hlong)

theorem execDecode_of_fits (hfit : (cobsDecode x).y.length ≤ s.params.outCap) :
    execDecode f e s = .next ((s.commitOut (cobsDecode x).y).finish
      { Results.only .ok with
        outLen := (cobsDecode x).y.length
        consumed := (cobsDecode x).used
        flags := decodeFlags (cobsDecode x).term (cobsDecode x).short }) :=
  (execDecode_of_inputAt ha hx hlen hstop).trans (if_neg (Nat.not_lt.mpr hfit))

end

/-- Settles O16: DECODE is turned away, or commits cobs_decode of the bytes it reads and finishes; and it never gives as many
bytes as it reads. -/
theorem decodeWritesTheMessage : Obligations.DecodeWritesTheMessage := by
  refine ⟨fun f e => decodeRequest_encodeRequest (.decode f e), fun _ f e hok => runsCommonChecks_of_ok hok (.decode f e),
    fun s f e x ha hx hlen hstop => ⟨fun hlong => ⟨execDecode_of_tooLong ha hx hlen hstop hlong, ?_⟩, fun hfit => ?_⟩⟩
  · have hle := cobsDecode_length_le_pred x
    omega
  · exact ⟨_, execDecode_of_fits ha hx hlen hstop hfit, rfl, flagTerm_decodeFlags _ _, flagShort_decodeFlags _ _,
      flagReserved_decodeFlags _ _, outIs_commitOut_finish s _ _, rfl, s.commitOut_finish_sameOutside _ _⟩

/-- What an OK DECODE finishes with (R135). -/
theorem execDecode_res_of_ok (h : execDecode f e s = .next t) (hok : t.res.status = 0x00#8) :
    t.res = { Results.only .ok with
      outLen := (cobsDecode (s.window f e)).y.length
      consumed := (cobsDecode (s.window f e)).used
      flags := decodeFlags (cobsDecode (s.window f e)).term (cobsDecode (s.window f e)).short } := by
  obtain ⟨-, hc | ⟨-, -, ⟨-, rfl⟩ | ⟨-, rfl⟩⟩⟩ := execDecode_next h
  · exact absurd hok hc.status_ne_ok
  · exact absurd hok (show Status.capacityExceeded.code ≠ 0x00#8 by decide)
  · rfl

/-- Settles O32: the bytes read end in the first zero, and where decoding stops inside a block they end in one cut short
(`cobsDecode_term_iff`, `cobsDecode_short_iff`). -/
theorem decodeFlagsMeaning : Obligations.DecodeFlagsMeaning := by
  refine ⟨fun x => ⟨cobsDecode_term_iff, cobsDecode_short_iff.trans ?_⟩, fun f hf => ?_, rfl, rfl, fun s t f e h hok => ?_⟩
  · exact ⟨fun ⟨bs, b, hok, ⟨hc, hz, hlt⟩, hx⟩ => ⟨bs, b.code, b.lits, hok, hc, hz, hlt, hx⟩,
      fun ⟨bs, c, lits, hok, hc, hz, hlt, hx⟩ => ⟨bs, ⟨c, lits⟩, hok, ⟨hc, hz, hlt⟩, hx⟩⟩
  · obtain ⟨bs, hbs⟩ := hf
    rw [hbs.cobsDecode_eq]
    exact ⟨rfl, rfl⟩
  · rw [execDecode_res_of_ok h hok]
    exact ⟨flagTerm_decodeFlags _ _, flagShort_decodeFlags _ _, flagReserved_decodeFlags _ _⟩

/-- Settles O33: the decoder reads up to the first zero or to the end. -/
theorem decodeStopPoint : Obligations.DecodeStopPoint := by
  refine ⟨fun x => ⟨decodeFrom_used_le fullCode 0 x, cobsDecode_take_used_append, fun hterm => ?_⟩, fun f hf => ?_,
    fun s t f e h hok => ?_⟩
  · exact (cobsDecode_term_or_used x).resolve_left (by simp [hterm])
  · obtain ⟨bs, hbs⟩ := hf
    rw [hbs.cobsDecode_eq]
  · rw [execDecode_res_of_ok h hok]

/-- A DECODE that the common checks let pass is turned away only where its result does not fit OUT (R135). -/
theorem execDecode_status_eq_ok_of_fits (ha : s.Accepts f e) (h : execDecode f e s = .next t)
    (hfit : (cobsDecode (s.window f e)).y.length ≤ s.params.outCap) : t.res.status = 0x00#8 := by
  obtain ⟨-, hc | ⟨-, -, ⟨hlong, -⟩ | ⟨-, rfl⟩⟩⟩ := execDecode_next h
  · obtain ⟨-, he, hf⟩ := ha
    obtain ⟨hlong, -⟩ | ⟨-, hoff, -⟩ := hc
    · omega
    · omega
  · omega
  · rfl

/-- Settles O34: every input is whole blocks and something that stops the decoder (`exists_blocks_append_stopsDecoder`), and
the decoder is run over each. -/
theorem malformedInputDecodes : Obligations.MalformedInputDecodes := by
  refine ⟨fun bs c lits hok hc hz hlt => ?_, fun bs hok => ?_, fun x => ?_, fun s t f e ha h hfit => ?_⟩
  · have hb : Block.CutShort ⟨c, lits⟩ := ⟨hc, hz, hlt⟩
    exact ⟨cobsDecode_cutByZero hok hb, cobsDecode_cutByEnd hok hb⟩
  · exact ⟨cobsDecode_blocksBytes hok, cobsDecode_frameBytes_append hok⟩
  · obtain ⟨bs, rest, hok, hstop, rfl⟩ := exists_blocks_append_stopsDecoder x
    refine ⟨bs, hok, ?_⟩
    cases hstop with
    | exhausted => exact .inl (List.append_nil _)
    | delimiter tl => exact .inr (.inl ⟨tl, by simp [frameBytes]⟩)
    | @cutByEnd b hb =>
      obtain ⟨hc, hz, hlt⟩ := hb
      exact .inr (.inr ⟨b.code, b.lits, hc, hz, hlt, .inl rfl⟩)
    | @cutByZero b hb tl =>
      obtain ⟨hc, hz, hlt⟩ := hb
      exact .inr (.inr ⟨b.code, b.lits, hc, hz, hlt, .inr ⟨tl, (List.append_assoc ..).symm⟩⟩)
  · exact execDecode_status_eq_ok_of_fits ha h hfit

/-- DECODE of a block whose OUT is at most one byte smaller than its IN always fits (R134). -/
theorem execDecode_status_ne_capacityExceeded (hcap : s.params.nMax - 1 ≤ s.params.outCap)
    (h : execDecode f e s = .next t) : t.res.status ≠ Status.capacityExceeded.code := by
  obtain ⟨-, hc | ⟨ha, -, ⟨hlong, -⟩ | ⟨-, rfl⟩⟩⟩ := execDecode_next h
  · obtain ⟨-, rfl⟩ | ⟨-, -, rfl⟩ := hc
    · exact (by decide : Status.inputTooLong.code ≠ Status.capacityExceeded.code)
    · exact (by decide : Status.badOffset.code ≠ Status.capacityExceeded.code)
  · have hle := cobsDecode_length_le_pred (s.window f e)
    have hwindow := ha.window_length_le
    omega
  · exact (by decide : Status.ok.code ≠ Status.capacityExceeded.code)

/-- Settles O35: the first code byte and the zero that stops decoding give no byte, nor does the code of a block after a full
one. -/
theorem decodedLength : Obligations.DecodedLength := by
  refine ⟨fun x => ?_, fun bs f hf => ?_, fun s t f e hcap h => execDecode_status_ne_capacityExceeded hcap h⟩
  · have hle := cobsDecode_length_le x
    refine ⟨by omega, fun hterm => ?_⟩
    rw [hterm, Bool.toNat_true] at hle
    omega
  · rw [hf.cobsDecode_y]
    obtain ⟨hne, hok, rfl⟩ := hf
    exact blocksContent_length hne hok

/-- DECODE of a window that decodes to nothing finishes with OK and leaves OUT as it was (R136). -/
theorem execDecode_of_empty (ha : s.Accepts f e) (hx : s.HoldsWindow f e x) (hempty : (cobsDecode x).y = []) :
    ∃ t, execDecode f e s = .next t ∧ t.res.status = 0x00#8 ∧ t.res.outLen = 0 ∧ ∀ a, t.out.read a = s.out.read a := by
  obtain ⟨hlen, hin⟩ := hx
  have hdec := execDecode_of_fits ha hin hlen.le (.inr hlen) (by simp [hempty])
  rw [hempty] at hdec
  exact ⟨_, hdec, rfl, rfl, fun _ => rfl⟩

/-- Settles O36: both windows decode to nothing. -/
theorem emptyMessageIsOk : Obligations.EmptyMessageIsOk := by
  intro s f e ha hx
  rcases hx with hx | hx
  · exact execDecode_of_empty ha hx (by decide)
  · exact execDecode_of_empty ha hx (by decide)

end Sys2Proof.Machine
end

section
/-! ## The first zero byte of IN from an address on (spec/42_frame.md R150 to R153) -/

namespace Sys2Proof.Machine

variable {s t : State} {f e z : Nat} {x p q : List Byte}

/-- Every byte of `IN[a..b)` was written and none is zero. -/
def State.ZeroFree (s : State) (a b : Nat) : Prop :=
  ∀ i, a ≤ i → i < b → ∃ v, s.inp.read i = some v ∧ v ≠ zeroByte

/-- The first zero byte of IN from `f` on is at `z`, and every byte before it was written. -/
structure State.FirstZeroAt (s : State) (f z : Nat) : Prop where
  le : f ≤ z
  zero : s.inp.read z = some zeroByte
  before : s.ZeroFree f z

theorem State.ZeroFree.read_ne_zero (h : s.ZeroFree f e) {a : Nat} (hf : f ≤ a) (he : a < e) :
    s.inp.read a ≠ some zeroByte := by
  obtain ⟨v, hv, hne⟩ := h a hf he
  simpa [hv] using hne

theorem State.ZeroFree.read_ne_none (h : s.ZeroFree f e) {a : Nat} (hf : f ≤ a) (he : a < e) :
    s.inp.read a ≠ none := by
  obtain ⟨v, hv, -⟩ := h a hf he
  simp [hv]

theorem State.ZeroFree.append {m : Nat} (h : s.ZeroFree f m) (h' : s.ZeroFree m e) : s.ZeroFree f e :=
  fun a hf he => (Nat.lt_or_ge a m).elim (h a hf) (h' a · he)

theorem State.ZeroFree.congr (h : s.ZeroFree f e) (hin : ∀ a, f ≤ a → a < e → t.inp.read a = s.inp.read a) :
    t.ZeroFree f e := fun a hf he => by
  rw [hin a hf he]
  exact h a hf he

theorem State.FirstZeroAt.congr (h : s.FirstZeroAt f z) (hin : ∀ a, f ≤ a → a < z + 1 → t.inp.read a = s.inp.read a) :
    t.FirstZeroAt f z where
  le := h.le
  zero := (hin z h.le (Nat.lt_succ_self z)).trans h.zero
  before := h.before.congr fun a hf hz => hin a hf (Nat.lt_succ_of_lt hz)

theorem State.ZeroFree.firstZeroAt {m : Nat} (h : s.ZeroFree f m) (hf : f ≤ m) (h' : s.FirstZeroAt m z) :
    s.FirstZeroAt f z where
  le := hf.trans h'.le
  zero := h'.zero
  before := h.append h'.before

theorem State.FirstZeroAt.unique {z' : Nat} (h : s.FirstZeroAt f z) (h' : s.FirstZeroAt f z') : z = z' := by
  rcases Nat.lt_trichotomy z z' with hlt | heq | hgt
  · exact absurd h.zero (h'.before.read_ne_zero h.le hlt)
  · exact heq
  · exact absurd h'.zero (h.before.read_ne_zero h'.le hgt)

theorem State.InputAt.of_append (hx : s.InputAt f (p ++ q)) : s.InputAt f p := fun j hj => by
  rw [hx j (by rw [List.length_append]; omega), List.getElem?_append_left hj]

theorem State.InputAt.zeroFree (hx : s.InputAt f x) (hz : zeroByte ∉ x) : s.ZeroFree f (f + x.length) := by
  intro a hf ha
  have hj : a - f < x.length := by omega
  have hread := hx (a - f) hj
  rw [Nat.add_sub_cancel' hf, List.getElem?_eq_getElem hj] at hread
  exact ⟨_, hread, fun h => hz (h ▸ List.getElem_mem hj)⟩

theorem State.HoldsWindow.zeroFree (hx : s.HoldsWindow f e x) (hz : zeroByte ∉ x) : s.ZeroFree f e := by
  obtain ⟨hlen, hin⟩ := hx
  exact fun a hf he => State.InputAt.zeroFree hin hz a hf (by omega)

theorem State.InputAt.firstZeroAt (hx : s.InputAt f (p ++ zeroByte :: q)) (hz : zeroByte ∉ p) :
    s.FirstZeroAt f (f + p.length) where
  le := Nat.le_add_right f _
  zero := by simpa using hx p.length (by simp)
  before := hx.of_append.zeroFree hz

theorem inputAt_window : s.InputAt f (s.window f e) := fun _ hj => window_get hj

/-- What the search finds in a window is the first zero byte from `FROM` on. -/
theorem firstZeroAt_of_firstZero_window {k : Nat} (h : firstZero (s.window f e) = some k) :
    f + k < e ∧ s.FirstZeroAt f (f + k) := by
  obtain ⟨p, q, hw, hz, rfl⟩ := firstZero_eq_some.mp h
  have hlen := window_length_le (s := s) (f := f) (e := e)
  rw [hw, List.length_append, List.length_cons] at hlen
  exact ⟨by omega, (hw ▸ inputAt_window).firstZeroAt hz⟩

/-- A window that was written and has no zero byte is read to its end. -/
theorem firstZero_window_of_zeroFree (h : s.ZeroFree f e) :
    firstZero (s.window f e) = none ∧ windowWritten (s.window f e) f e = true := by
  constructor
  · refine Option.eq_none_iff_forall_ne_some.mpr fun k hk => ?_
    obtain ⟨hlt, hk⟩ := firstZeroAt_of_firstZero_window hk
    exact h.read_ne_zero hk.le hlt hk.zero
  · refine Bool.ne_false_iff.mp fun hw => ?_
    obtain ⟨a, hf, he, ha⟩ := windowWritten_eq_false_iff.mp hw
    exact h.read_ne_none hf he ha

/-- The search finds the first zero byte that lies in its window: it neither runs past it nor meets an unwritten byte. -/
theorem firstZero_window_of_firstZeroAt (h : s.FirstZeroAt f z) (he : z < e) :
    firstZero (s.window f e) = some (z - f) := by
  cases hk : firstZero (s.window f e) with
  | some k =>
    have hz : z = f + k := h.unique (firstZeroAt_of_firstZero_window hk).2
    rw [hz, Nat.add_sub_cancel_left]
  | none =>
    have hnone := firstZero_eq_none.mp hk
    cases hw : windowWritten (s.window f e) f e with
    | true =>
      have hfree := (holds_of_windowWritten hw).zeroFree hnone
      exact absurd h.zero (hfree.read_ne_zero h.le he)
    | false =>
      obtain ⟨a, hf, -, ha, hbefore⟩ := window_unstopped_iff.mp ⟨hnone, hw⟩
      rcases Nat.lt_trichotomy a z with hlt | rfl | hgt
      · exact absurd ha (h.before.read_ne_none hf hlt)
      · exact absurd (ha.symm.trans h.zero) (by simp)
      · exact absurd h.zero (hbefore z h.le hgt)

end Sys2Proof.Machine
end

section
/-! ## What FIND_FRAME answers (spec/42_frame.md R150 to R155) -/

namespace Sys2Proof.Machine

variable {s t : State} {f e z : Nat} {x : List Byte}

/-- FIND_FRAME gives the range up to the first zero byte of its window (R150). -/
theorem execFindFrame_of_firstZeroAt (ha : s.Accepts f e) (h : s.FirstZeroAt f z) (he : z < e) :
    execFindFrame f e s = .next (s.finish { Results.only .ok with start := f, endAt := z + 1 }) := by
  rw [execFindFrame_of_firstZero ha (firstZero_window_of_firstZeroAt h he), Nat.add_sub_cancel' h.le]

/-- FIND_FRAME of a window without a zero byte (R150). -/
theorem execFindFrame_of_zeroFree (ha : s.Accepts f e) (h : s.ZeroFree f e) :
    execFindFrame f e s = .next (s.finishOnly .notFound) := by
  obtain ⟨hnone, hw⟩ := firstZero_window_of_zeroFree h
  simp only [execFindFrame, earlyEnd_of_accepts ha, hnone, hw, if_true]

/-- What an OK FIND_FRAME found (R150). -/
theorem execFindFrame_ok (h : execFindFrame f e s = .next t) (hok : t.res.status = 0x00#8) :
    s.Accepts f e ∧ ∃ z, z < e ∧ s.FirstZeroAt f z ∧
      t = s.finish { Results.only .ok with start := f, endAt := z + 1 } := by
  obtain ⟨-, hc | ⟨ha, ⟨k, hk, rfl⟩ | ⟨-, -, rfl⟩⟩⟩ := execFindFrame_next h
  · exact absurd hok hc.status_ne_ok
  · obtain ⟨hlt, hzero⟩ := firstZeroAt_of_firstZero_window hk
    exact ⟨ha, f + k, hlt, hzero, rfl⟩
  · exact absurd hok (show Status.notFound.code ≠ 0x00#8 by decide)

theorem EndedByCheck.status_ne_notFound (h : EndedByCheck s t f e) : t.res.status ≠ 0x01#8 := by
  obtain ⟨-, rfl⟩ | ⟨-, -, rfl⟩ := h
  · exact (by decide : Status.inputTooLong.code ≠ 0x01#8)
  · exact (by decide : Status.badOffset.code ≠ 0x01#8)

/-- What a FIND_FRAME that answers `NOT_FOUND` scanned (R152). -/
theorem execFindFrame_notFound (h : execFindFrame f e s = .next t) (hnf : t.res.status = 0x01#8) :
    s.Accepts f e ∧ s.ZeroFree f e ∧ t = s.finishOnly .notFound := by
  obtain ⟨-, hc | ⟨ha, ⟨k, -, rfl⟩ | ⟨hnone, hholds, rfl⟩⟩⟩ := execFindFrame_next h
  · exact absurd hnf hc.status_ne_notFound
  · exact absurd hnf (show Status.ok.code ≠ 0x01#8 by decide)
  · exact ⟨ha, hholds.zeroFree (firstZero_eq_none.mp hnone), rfl⟩

/-- Operands are accepted with any other end of the window that lies between `FROM` and the end of IN (R170). -/
theorem State.Accepts.of_inEnd {e' : Nat} (h : s.Accepts f e) (hf : f ≤ e') (he : e' ≤ s.params.nMax) :
    s.Accepts f e' := ⟨h.1, he, hf⟩

/-- Settles O17: the window's first zero byte is what the search finds, and a zero-free window is read to its end. -/
theorem findFrameFindsTheFirstZero : Obligations.FindFrameFindsTheFirstZero :=
  ⟨fun f e => decodeRequest_encodeRequest (.findFrame f e), fun _ f e hok => runsCommonChecks_of_ok hok (.findFrame f e),
    fun _ _ _ ha => ⟨fun _ hf he hz hbefore => execFindFrame_of_firstZeroAt ha ⟨hf, hz, hbefore⟩ he,
      execFindFrame_of_zeroFree ha⟩⟩

/-- Settles O37: `END - 1` is the address of the first zero byte from `START` on. -/
theorem frameRange : Obligations.FrameRange := by
  intro s t f e h hok
  obtain ⟨-, z, -, ⟨hle, hzero, hbefore⟩, rfl⟩ := execFindFrame_ok h hok
  exact ⟨Nat.lt_succ_of_le hle, hzero, hbefore⟩

/-- Settles O38: the answer depends on the window (`exec_sameAnswer`), and the first zero byte is the same over any bytes
that agree up to it and in any window that holds it. -/
theorem scannedRange : Obligations.ScannedRange := by
  intro s f e ha
  refine ⟨fun m hin => exec_sameAnswer (s := { s with inp := m }) rfl (window_congr hin),
    fun t m e' h hok hle he' hin => ?_,
    fun x hx hz => ⟨_, execFindFrame_of_zeroFree ha (hx.zeroFree hz), rfl⟩⟩
  obtain ⟨-, z, -, hfirst, rfl⟩ := execFindFrame_ok h hok
  have hfirst' : State.FirstZeroAt { s with inp := m } f z := hfirst.congr hin
  have ha' : State.Accepts { s with inp := m } f e' := ha.of_inEnd (hfirst.le.trans (Nat.le_of_lt hle)) he'
  have hexec := execFindFrame_of_firstZeroAt ha' hfirst' hle
  rw [exec, hexec]
  exact sameAnswer_finish_of_outLen_eq_zero rfl

/-- Settles O39: the old window is zero-free and the host's write leaves it so; the first zero byte of the new bytes, if
there is one, is then the first from `FROM` on. -/
theorem resumptionAfterNotFound : Obligations.ResumptionAfterNotFound := by
  intro s t f e bs h hnf hfit
  obtain ⟨ha, hfree, rfl⟩ := execFindFrame_notFound h hnf
  have ⟨_, _, hfe⟩ := ha
  obtain ⟨u, hwrite, hnew, hsame, hparams, -⟩ := hostWritesIn (s.finishOnly .notFound) e bs rfl hfit
  have hold : u.ZeroFree f e := hfree.congr fun a _ hlt => hsame a (.inl hlt)
  have ha' : u.Accepts f (e + bs.length) := by
    rw [State.Accepts, hparams]
    exact ha.of_inEnd (hfe.trans (Nat.le_add_right e _)) hfit
  refine ⟨u, hwrite, ?_, fun hz => execFindFrame_of_zeroFree ha' (hold.append (hnew.zeroFree hz))⟩
  rintro p q rfl hz
  exact execFindFrame_of_firstZeroAt ha' (hold.firstZeroAt hfe (hnew.firstZeroAt hz)) (by simp)

/-- What is left of the window after a zero byte (R154). -/
theorem State.HoldsWindow.afterZero {p q : List Byte} (hx : s.HoldsWindow f e (p ++ zeroByte :: q)) :
    s.HoldsWindow (f + p.length + 1) e q := by
  obtain ⟨hlen, hin⟩ := hx
  rw [List.length_append, List.length_cons] at hlen
  refine ⟨by omega, fun j hj => ?_⟩
  have hread := hin (p.length + (j + 1)) (by simp; omega)
  rw [List.getElem?_append_right (by omega), Nat.add_sub_cancel_left, List.getElem?_cons_succ] at hread
  rw [← hread]
  congr 1
  omega

theorem pastZeros_eq_nil (a : Nat) (hz : zeroByte ∉ x) : pastZeros a x = [] := by
  induction x generalizing a with
  | nil => rfl
  | cons b bs ih =>
    obtain ⟨hb, hbs⟩ := not_or.mp (mt List.mem_cons.mpr hz)
    rw [pastZeros, if_neg (Ne.symm hb), ih (a + 1) hbs]

theorem pastZeros_of_firstZero (a : Nat) {p : List Byte} (q : List Byte) (hz : zeroByte ∉ p) :
    pastZeros a (p ++ zeroByte :: q) = (a + p.length + 1) :: pastZeros (a + p.length + 1) q := by
  induction p generalizing a with
  | nil => simp [pastZeros]
  | cons b bs ih =>
    obtain ⟨hb, hbs⟩ := not_or.mp (mt List.mem_cons.mpr hz)
    rw [List.cons_append, pastZeros, if_neg (Ne.symm hb), ih (a + 1) hbs, List.length_cons,
      Nat.add_right_comm a 1 bs.length, Nat.add_assoc a bs.length 1]

theorem walkFrames_of_zeroFree (fuel : Nat) (ha : s.Accepts f e) (h : s.ZeroFree f e) : walkFrames e fuel f s = [] := by
  cases fuel with
  | zero => rfl
  | succ fuel =>
    simp only [walkFrames, exec, execFindFrame_of_zeroFree ha h]
    exact if_neg (show Status.notFound.code ≠ Status.ok.code by decide)

theorem walkFrames_of_firstZeroAt (fuel : Nat) (ha : s.Accepts f e) (h : s.FirstZeroAt f z) (he : z < e) :
    walkFrames e (fuel + 1) f s = (f, z + 1) ::
      walkFrames e fuel (z + 1) (s.finish { Results.only .ok with start := f, endAt := z + 1 }) := by
  simp only [walkFrames, exec, execFindFrame_of_firstZeroAt ha h he, State.finish_res, Results.only_status, if_true]

/-- Settles O40, by induction on the number of requests: each finds the first zero byte of what is left of the window, and
leaves IN as it was for the next. -/
theorem walkingFramesCoversThem : Obligations.WalkingFramesCoversThem := by
  intro s f e fuel x ha hx hfuel
  induction fuel generalizing s f x with
  | zero => exact absurd hfuel (Nat.not_lt_zero _)
  | succ fuel ih =>
    by_cases hz : zeroByte ∈ x
    · obtain ⟨p, q, rfl, hp⟩ := List.eq_append_cons_of_mem hz
      have hfirst : s.FirstZeroAt f (f + p.length) := State.InputAt.firstZeroAt hx.2 hp
      have hlen : p.length + (q.length + 1) = e - f := by simpa using hx.1
      have hlt : f + p.length < e := by omega
      have hrest : s.HoldsWindow (f + p.length + 1) e q := hx.afterZero
      have hq : q.length < fuel := by
        rw [List.length_append, List.length_cons] at hfuel
        omega
      have ha' : s.Accepts (f + p.length + 1) e := ⟨ha.1, ha.2.1, hlt⟩
      obtain ⟨hends, hstarts⟩ :=
        ih (s.finish { Results.only .ok with start := f, endAt := f + p.length + 1 }) _ q ha' hrest hq
      rw [walkFrames_of_firstZeroAt fuel ha hfirst hlt, pastZeros_of_firstZero f q hp, List.map_cons, List.map_cons, hends,
        hstarts]
      exact ⟨rfl, rfl⟩
    · have hfree := hx.zeroFree hz
      rw [walkFrames_of_zeroFree (fuel + 1) ha hfree, pastZeros_eq_nil f hz]
      exact ⟨rfl, rfl⟩

/-- Settles O41: both windows begin with the bytes up to the delimiter, where DECODE stops. -/
theorem findFrameAgreesWithDecode : Obligations.FindFrameAgreesWithDecode := by
  intro s t f e e' h hok hle he'
  obtain ⟨ha, z, -, hfirst, rfl⟩ := execFindFrame_ok h hok
  simp only [State.finish_res] at hle ⊢
  have hfz : f ≤ z := hfirst.le
  have hframe := firstZero_window_of_firstZeroAt hfirst (Nat.lt_succ_self z)
  have hlen := window_length_le (s := s) (f := f) (e := z + 1)
  have hstop : (cobsDecode (s.window f (z + 1))).term = true := by rw [cobsDecode_term, hframe]; rfl
  have ha' : s.Accepts f e' := ha.of_inEnd (by omega) he'
  have hat : s.Accepts f (z + 1) := ha.of_inEnd (by omega) (by omega)
  refine ⟨?_, fun u hu huok => ?_⟩
  · exact (execDecode_of_inputAt ha' inputAt_window (by omega) (.inl hstop)).trans
      (execDecode_of_inputAt hat inputAt_window hlen (.inl hstop)).symm
  · have hlong := firstZero_window_of_firstZeroAt hfirst hle
    rw [execDecode_res_of_ok hu huok, cobsDecode_used, cobsDecode_term, hlong]
    exact ⟨by simp; omega, flagTerm_decodeFlags _ _⟩

end Sys2Proof.Machine
end

section
/-! ## The status a request finishes with (spec/60_exceptions.md R170 to R173) -/

namespace Sys2Proof.Machine

variable {s t : State} {f e : Nat} {i : Instr} {st : Status} {x : List Byte}

/-- When operation `i` may finish with a status (R171). -/
inductive StatusCause (s : State) : Instr → Status → Prop where
  | inputTooLong {i : Instr} (hlong : s.params.nMax < i.inEnd) : StatusCause s i .inputTooLong
  | badOffset {i : Instr} (hle : i.inEnd ≤ s.params.nMax) (hoff : i.inEnd < i.fromOff) : StatusCause s i .badOffset
  | ok {i : Instr} (ha : s.Accepts i.fromOff i.inEnd) : StatusCause s i .ok
  | notFound {f e : Nat} (ha : s.Accepts f e) (hfree : s.ZeroFree f e) : StatusCause s (.findFrame f e) .notFound
  | encodeTooLong {f e : Nat} (ha : s.Accepts f e) (hlong : s.params.outCap < (cobsEncode (s.window f e)).length) :
    StatusCause s (.encode f e) .capacityExceeded
  | decodeTooLong {f e : Nat} (ha : s.Accepts f e) (hlong : s.params.outCap < (cobsDecode (s.window f e)).y.length) :
    StatusCause s (.decode f e) .capacityExceeded

/-- A common check that fails decides the status, and where both pass the status is neither of theirs (R170). -/
theorem StatusCause.check_cases (h : StatusCause s i st) :
    (s.params.nMax < i.inEnd ∧ st = .inputTooLong) ∨
    (i.inEnd ≤ s.params.nMax ∧ i.inEnd < i.fromOff ∧ st = .badOffset) ∨
    (s.Accepts i.fromOff i.inEnd ∧ st ≠ .inputTooLong ∧ st ≠ .badOffset) := by
  cases h with
  | inputTooLong hlong => exact .inl ⟨hlong, rfl⟩
  | badOffset hle hoff => exact .inr (.inl ⟨hle, hoff, rfl⟩)
  | ok ha => exact .inr (.inr ⟨ha, by decide, by decide⟩)
  | notFound ha => exact .inr (.inr ⟨ha, by decide, by decide⟩)
  | encodeTooLong ha => exact .inr (.inr ⟨ha, by decide, by decide⟩)
  | decodeTooLong ha => exact .inr (.inr ⟨ha, by decide, by decide⟩)

theorem StatusCause.eq_inputTooLong_iff (h : StatusCause s i st) : st = .inputTooLong ↔ s.params.nMax < i.inEnd := by
  obtain ⟨hlong, rfl⟩ | ⟨hle, -, rfl⟩ | ⟨⟨-, hle, -⟩, hne, -⟩ := h.check_cases
  · exact iff_of_true rfl hlong
  · exact iff_of_false (by decide) (Nat.not_lt.mpr hle)
  · exact iff_of_false hne (Nat.not_lt.mpr hle)

theorem StatusCause.eq_badOffset_iff (h : StatusCause s i st) :
    st = .badOffset ↔ i.inEnd ≤ s.params.nMax ∧ i.inEnd < i.fromOff := by
  obtain ⟨hlong, rfl⟩ | ⟨hle, hoff, rfl⟩ | ⟨⟨-, -, hoff⟩, -, hne⟩ := h.check_cases
  · exact iff_of_false (by decide) fun hb => Nat.not_le.mpr hlong hb.1
  · exact iff_of_true rfl ⟨hle, hoff⟩
  · exact iff_of_false hne fun hb => Nat.not_lt.mpr hoff hb.2

/-- Operation `i` finishes in state `t` with a status it has a cause for, and every status but OK is all it finishes with
(R171). -/
def Finishes (s : State) (i : Instr) (t : State) : Prop :=
  ∃ st, StatusCause s i st ∧ t.res.status = st.code ∧ (st = .ok ∨ t = s.finishOnly st)

theorem StatusCause.finishes (h : StatusCause s i st) : Finishes s i (s.finishOnly st) := ⟨st, h, rfl, .inr rfl⟩

theorem finishes_ok (ha : s.Accepts i.fromOff i.inEnd) (hok : t.res.status = Status.ok.code) : Finishes s i t :=
  ⟨.ok, .ok ha, hok, .inl rfl⟩

theorem EndedByCheck.finishes (h : EndedByCheck s t i.fromOff i.inEnd) : Finishes s i t := by
  obtain ⟨hlong, rfl⟩ | ⟨hle, hoff, rfl⟩ := h
  · exact (StatusCause.inputTooLong hlong).finishes
  · exact (StatusCause.badOffset hle hoff).finishes

/-- Every operation that answers a next state finishes with a status it has a cause for (R171, R172). -/
theorem exec_finishes (h : exec i s = .next t) : Finishes s i t := by
  cases i with
  | encode f e =>
    obtain ⟨-, hc | ⟨ha, -, ⟨hlong, rfl⟩ | ⟨-, rfl⟩⟩⟩ := execEncode_next h
    · exact hc.finishes
    · exact (StatusCause.encodeTooLong ha hlong).finishes
    · exact finishes_ok ha rfl
  | decode f e =>
    obtain ⟨-, hc | ⟨ha, -, ⟨hlong, rfl⟩ | ⟨-, rfl⟩⟩⟩ := execDecode_next h
    · exact hc.finishes
    · exact (StatusCause.decodeTooLong ha hlong).finishes
    · exact finishes_ok ha rfl
  | findFrame f e =>
    obtain ⟨-, hc | ⟨ha, ⟨k, -, rfl⟩ | ⟨hnone, hholds, rfl⟩⟩⟩ := execFindFrame_next h
    · exact hc.finishes
    · exact finishes_ok ha rfl
    · exact (StatusCause.notFound ha (hholds.zeroFree (firstZero_eq_none.mp hnone))).finishes
  | encSize f e =>
    obtain ⟨-, hc | ⟨ha, -, rfl⟩⟩ := execEncSize_next h
    · exact hc.finishes
    · exact finishes_ok ha rfl
  | encBound f e =>
    obtain ⟨-, hc | ⟨ha, rfl⟩⟩ := execEncBound_next h
    · exact hc.finishes
    · exact finishes_ok ha rfl

/-- `ILLEGAL_OP` is no operation's status: the decoder alone gives it (R170). -/
theorem StatusCause.code_lt (h : StatusCause s i st) : st.code.toNat < 5 := by cases h <;> decide

/-- Settles O9: an operation finishes with the code of a status it has a cause for, and different statuses have different
codes. -/
theorem statusCodesAndTheirCauses : Obligations.StatusCodesAndTheirCauses := by
  intro s t i h
  obtain ⟨st, hcause, hst, honly⟩ := exec_finishes h
  have hcode (st' : Status) : t.res.status = st'.code ↔ st = st' := hst ▸ ⟨Status.code_inj, congrArg Status.code⟩
  refine ⟨(hcode .inputTooLong).trans hcause.eq_inputTooLong_iff, (hcode .badOffset).trans hcause.eq_badOffset_iff,
    fun hnf => ?_, fun hcap => ?_, hst ▸ hcause.code_lt, fun hne => ?_⟩
  · cases (hcode .notFound).mp hnf
    cases hcause with
    | notFound ha hfree => exact ⟨rfl, hfree⟩
  · cases (hcode .capacityExceeded).mp hcap
    cases hcause with
    | encodeTooLong ha hlong => exact .inl ⟨rfl, hlong⟩
    | decodeTooLong ha hlong => exact .inr ⟨rfl, hlong⟩
  · obtain rfl := honly.resolve_left fun hok => hne ((hcode .ok).mpr hok)
    exact ⟨rfl, rfl⟩

/-- Settles O7: with no further move of the host the step serves the request, which ends with the first check that fails. -/
theorem commonChecksInOrder : Obligations.CommonChecksInOrder := by
  intro s r hok hh hr
  rw [step_of_host_eq_nil hok hh]
  exact ⟨serve_of_decodeRequest_ne_ok hr,
    fun hi hlong => serve_of_earlyEnd hr hi (earlyEnd_of_tooLong hok hlong),
    fun hi hle hoff => serve_of_earlyEnd hr hi (earlyEnd_of_badOffset hok hle hoff)⟩

section
variable (ha : s.Accepts f e) (hx : s.HoldsWindow f e x)
include ha hx

theorem execEncode_status_of_holds : ∃ t, execEncode f e s = .next t ∧
    t.res.status = if s.params.outCap < (cobsEncode x).length then 0x02#8 else 0x00#8 := by
  rw [execEncode_of_holds ha hx]
  split
  · exact ⟨_, rfl, rfl⟩
  · exact ⟨_, rfl, rfl⟩

theorem execDecode_status_of_holds : ∃ t, execDecode f e s = .next t ∧
    t.res.status = if s.params.outCap < (cobsDecode x).y.length then 0x02#8 else 0x00#8 := by
  obtain ⟨hlen, hin⟩ := hx
  rw [execDecode_of_inputAt ha hin hlen.le (.inr hlen)]
  split
  · exact ⟨_, rfl, rfl⟩
  · exact ⟨_, rfl, rfl⟩

theorem execFindFrame_status_of_holds : ∃ t, execFindFrame f e s = .next t ∧
    t.res.status = if zeroByte ∈ x then 0x00#8 else 0x01#8 := by
  cases hk : firstZero x with
  | some k =>
    have hz : zeroByte ∈ x := by
      obtain ⟨p, q, rfl, -, -⟩ := firstZero_eq_some.mp hk
      exact List.mem_append_cons_self
    exact ⟨_, execFindFrame_of_firstZero ha ((window_of_holds hx).symm ▸ hk), (if_pos hz).symm⟩
  | none =>
    have hz : zeroByte ∉ x := firstZero_eq_none.mp hk
    exact ⟨_, execFindFrame_of_zeroFree ha (hx.zeroFree hz), (if_neg hz).symm⟩

end

/-- Settles O10: the decoder, then the common checks, then the operation decides the status. -/
theorem statusPriority : Obligations.StatusPriority := by
  intro s r x hok hh hr hwindow
  rw [step_of_host_eq_nil hok hh]
  cases hd : decodeRequest r with
  | error d => exact ⟨_, serve_of_decodeRequest_eq_error hr hd, rfl⟩
  | ok i =>
    rcases Nat.lt_or_ge s.params.nMax r.inEnd with hlong | hle
    · exact ⟨_, serve_of_earlyEnd hr ⟨i, hd⟩ (earlyEnd_of_tooLong hok hlong), (if_pos hlong).symm⟩
    rcases Nat.lt_or_ge r.inEnd r.fromOff with hoff | hoff
    · exact ⟨_, serve_of_earlyEnd hr ⟨i, hd⟩ (earlyEnd_of_badOffset hok hle hoff),
        ((if_neg (Nat.not_lt.mpr hle)).trans (if_pos hoff)).symm⟩
    simp only [if_neg (Nat.not_lt.mpr hle), if_neg (Nat.not_lt.mpr hoff), serve_of_decodeRequest_eq_ok hr hd]
    have ha : s.Accepts r.fromOff r.inEnd := ⟨hok, hle, hoff⟩
    have hx := hwindow hle hoff
    obtain ⟨hf, he⟩ := operands_of_decodeRequest_eq_ok hd
    rw [← hf, ← he] at ha hx
    cases i with
    | encode f e => exact execEncode_status_of_holds ha hx
    | decode f e => exact execDecode_status_of_holds ha hx
    | findFrame f e => exact execFindFrame_status_of_holds ha hx
    | encSize f e => exact ⟨_, execEncSize_of_holds ha hx, rfl⟩
    | encBound f e => exact ⟨_, execEncBound_of_accepts ha, rfl⟩

end Sys2Proof.Machine
end

section
/-! ## What the host does before and during a request (spec/60_exceptions.md R182, R185, R194) -/

namespace Sys2Proof.Machine

/-- Settles O55: ENC_SIZE leaves the parameters and the window, so ENCODE answers as it would have before, and its frame is as
long as `SIZE` says (`cobsEncode_length`). -/
theorem sizeBeforeSending : Obligations.SizeBeforeSending := by
  intro s t f e h hok
  obtain ⟨-, hc | ⟨ha, hx, rfl⟩⟩ := execEncSize_next h
  · exact absurd hok hc.status_ne_ok
  have hsize := cobsEncode_length (s.window f e)
  rcases Nat.lt_or_ge s.params.outCap (encSize (s.window f e)) with hlong | hfit
  · exact ⟨_, execEncode_of_tooLong (s := s.finish _) ha hx (hsize ▸ hlong), .inl ⟨hlong, rfl, rfl⟩⟩
  · exact ⟨_, execEncode_of_fits (s := s.finish _) ha hx (hsize ▸ hfit), .inr ⟨hfit, by rw [State.finish_res, hsize]; rfl⟩⟩

/-- Settles O47: each of the four moves asks first whether a request is outstanding. -/
theorem overlappingMovesHaveNoMove : Obligations.OverlappingMovesHaveNoMove := by
  intro s q hq
  have hbusy : s.request.isSome = true := Option.isSome_of_mem hq
  exact ⟨fun _ => if_pos hbusy, fun _ _ => if_pos hbusy, fun _ => if_pos hbusy, fun _ _ => if_pos hbusy, fun _ _ => rfl⟩

end Sys2Proof.Machine
end

section
/-! ## Finding the next frame after a loss (spec/70_reset_and_hazards.md R197) -/

namespace Sys2Proof.Machine

variable {s : State} {f e : Nat} {p q : List Byte}

theorem CanonicalFrame.wellFormedFrame {y : List Byte} (hy : CanonicalFrame y) : WellFormedFrame y := by
  obtain ⟨bs, hf, -⟩ := hy
  exact ⟨bs, hf⟩

/-- A written window begins with a written window. -/
theorem State.HoldsWindow.of_append (hx : s.HoldsWindow f e (p ++ q)) : s.HoldsWindow f (f + p.length) p :=
  ⟨(Nat.add_sub_cancel_left ..).symm, State.InputAt.of_append hx.2⟩

/-- FIND_FRAME of a written window that begins with zero-free bytes and a zero byte (R150). -/
theorem execFindFrame_of_holds_zero (ha : s.Accepts f e) (hx : s.HoldsWindow f e (p ++ zeroByte :: q)) (hz : zeroByte ∉ p) :
    execFindFrame f e s = .next (s.finish { Results.only .ok with start := f, endAt := f + p.length + 1 }) :=
  execFindFrame_of_firstZero ha (firstZero_eq_some.mpr ⟨p, q, window_of_holds hx, hz, rfl⟩)

/-- Settles O56: the damaged bytes end at their zero byte, what is left of the window begins with the whole frame, and the
range FIND_FRAME then gives holds exactly that frame; a finished FIND_FRAME leaves IN, OUT and the parameters as they were. -/
theorem resynchronisesAfterLoss : Obligations.ResynchronisesAfterLoss := by
  intro s f e d x q ha hx hd hfit
  have ⟨hok, hmax, _⟩ := ha
  have hrest : s.HoldsWindow (f + d.length + 1) e (cobsEncode x ++ q) := hx.afterZero
  have hlen : d.length + ((cobsEncode x).length + q.length + 1) = e - f := by simpa using hx.1
  have harest : s.Accepts (f + d.length + 1) e := ⟨hok, hmax, by omega⟩
  have haframe : s.Accepts (f + d.length + 1) (f + d.length + 1 + (cobsEncode x).length) :=
    harest.of_inEnd (Nat.le_add_right ..) (by omega)
  have hwf := (canonicalFrame_cobsEncode x).wellFormedFrame
  exact ⟨_, _, _, execFindFrame_of_holds_zero ha hx hd, rfl,
    frameLengthIsFound (s.finish _) _ e (cobsEncode x) q harest hwf hrest, rfl, rfl,
    execDecode_of_encoded (s := (s.finish _).finish _) haframe hrest.of_append hfit, rfl, outIs_commitOut_finish _ x _, rfl⟩

end Sys2Proof.Machine
end

section
/-! ## Whose move a step is, and the issue of a request (spec/20_memory.md R47, spec/60_exceptions.md R183) -/

namespace Sys2Proof.Machine

variable {s u : State} {r : Request} {i : Instr}

theorem serve_of_request_eq_none (hr : s.request = none) : serve s = .next s := by
  simp only [serve, hr]

/-- A step that is the block's move in a state with the same configuration runs the operation the request selects: where the
configuration is refused, the operation is refused too (R6). -/
theorem step_eq_exec_of_step_eq_serve (hp : u.params = s.params) (hserve : s.params.ok = true → step s = serve u)
    (hr : u.request = some r) (hd : decodeRequest r = .ok i) : step s = exec i u := by
  cases hok : s.params.ok with
  | true => rw [hserve hok, serve_of_decodeRequest_eq_ok hr hd]
  | false => rw [step_of_not_ok hok, exec_of_earlyEnd (earlyEnd_of_not_ok (hp ▸ hok))]

/-- Settles O5: with no further move of the host, and where the host waits, the step is the block's move. -/
theorem stepRunsTheRequest : Obligations.StepRunsTheRequest := fun s _ _ hr hd =>
  ⟨fun hh => step_eq_exec_of_step_eq_serve rfl (fun hok => step_of_host_eq_nil hok hh) hr hd,
    fun ms hh =>
      step_eq_exec_of_step_eq_serve (u := { s with host := ms }) rfl (fun hok => step_of_host_eq_cons hok hh) hr hd⟩

/-- Settles O6: a legal configuration leaves only the question whose move it is. -/
theorem stepPerformsTheHostsMove : Obligations.StepPerformsTheHostsMove := fun _ hok =>
  ⟨fun _ _ hh => step_of_host_eq_cons hok hh,
    fun hh hr => (step_of_host_eq_nil hok hh).trans (serve_of_request_eq_none hr)⟩

theorem Request.fits_iff {p : Params} : r.fits p = true ↔ r.fromOff < 2 ^ p.lenW ∧ r.inEnd < 2 ^ p.lenW := by
  simp [Request.fits]

theorem hostIssue_of_not_fits (hr : s.request = none) (hfit : ¬ r.fits s.params = true) :
    hostIssue r s = .refused .operandTooWide := by
  simp [hostIssue, hr, hfit]

/-- Settles O45: the issue asks, of a block with no request, only whether the operands fit. -/
theorem issueNeedsFittingOperands : Obligations.IssueNeedsFittingOperands := by
  intro s r hr
  refine ⟨fun hf he => hostIssue_of_fits hr (Request.fits_iff.mpr ⟨hf, he⟩),
    fun hwide => hostIssue_of_not_fits hr fun hfit => ?_⟩
  obtain ⟨hf, he⟩ := Request.fits_iff.mp hfit
  exact hwide.elim (Nat.not_le_of_lt hf) (Nat.not_le_of_lt he)

/-- Settles O46: the issue latches words that decode to the operation, and the wait is then a step that runs it (O5). -/
theorem issuedRequestIsServed : Obligations.IssuedRequestIsServed := by
  intro s i ms hok hr hwf hh
  have hlatch : step s = .next { s with host := .wait :: ms, request := some (encodeRequest i) } :=
    (step_of_host_eq_cons hok hh).trans (hostIssue_of_fits hr hwf)
  obtain ⟨-, hwait⟩ := stepRunsTheRequest { s with host := .wait :: ms, request := some (encodeRequest i) }
    (encodeRequest i) i rfl (decodeRequest_encodeRequest i)
  exact ⟨_, hlatch, rfl, hwait ms rfl⟩

end Sys2Proof.Machine
end

section
/-! ## The ends of the buffers, and what the host reads of OUT (spec/20_memory.md R40, R45, spec/60_exceptions.md R183) -/

namespace Sys2Proof.Machine

variable {s : State} {a len j : Nat}

theorem spanInside_eq_false {cap : Nat} (hlen : len ≠ 0) (h : cap < a + len) : spanInside a len cap = false :=
  Bool.eq_false_iff.mpr fun hin => (spanInside_iff.mp hin).elim hlen (Nat.not_le_of_lt h)

/-- Settles O44: the bytes of either move do not all lie inside the buffer. -/
theorem noAddressOutsideTheBuffers : Obligations.NoAddressOutsideTheBuffers := by
  intro s a hr
  refine ⟨fun bs hbs hout => ?_, fun len hlen hout => ?_⟩
  · have hspan := spanInside_eq_false (mt List.length_eq_zero_iff.mp hbs) hout
    simp [hostAct, hostWriteIn, hr, hspan]
  · have hspan := spanInside_eq_false hlen hout
    simp [hostAct, hostReadOut, hr, hspan]

theorem hostReadOut_of_fits (hr : s.request = none) (h : a + len ≤ s.params.outCap) :
    hostReadOut a len s =
      .next { s with seen := s.seen ++ [.out a (s.outBytes a len)], drawn := s.drawn + len } := by
  simp [hostReadOut, hr, spanInside_iff.mpr (.inr h)]

theorem State.outBytes_length (s : State) (a len : Nat) : (s.outBytes a len).length = len := by
  simp [State.outBytes]

/-- Each byte of a host read comes from its own address and may draw its own free byte. -/
theorem State.outBytes_getElem? (s : State) (a : Nat) (hj : j < len) :
    (s.outBytes a len)[j]? = some (s.outByte (a + j) (s.drawn + j)) := by
  simp [State.outBytes, hj]

/-- Below the defined length a host read gives the byte that OUT holds (R183). -/
theorem State.outByte_of_read {b : Byte} (k : Nat) (ha : a < s.outDefined) (hb : s.out.read a = some b) :
    s.outByte a k = b := by
  simp [State.outByte, ha, hb]

/-- From the defined length on a host read gives a free byte, whatever OUT holds (R45). -/
theorem State.outByte_of_outDefined_le (k : Nat) (ha : s.outDefined ≤ a) : s.outByte a k = Config.freeByte k :=
  if_neg (Nat.not_lt.mpr ha)

/-- Settles O49: each byte of the read is taken at its own address, below the defined length or not. -/
theorem hostReadsOut : Obligations.HostReadsOut := by
  intro s a len hr h
  refine ⟨_, hostReadOut_of_fits hr h, State.outBytes_length s a len, fun j b hj hdef hb => ?_, fun j hj hfree => ?_⟩
  · rw [State.outBytes_getElem? s a hj, State.outByte_of_read _ hdef hb]
  · rw [State.outBytes_getElem? s a hj, State.outByte_of_outDefined_le _ hfree]

end Sys2Proof.Machine
end

section
/-! ## The invariant at reset (spec/70_reset_and_hazards.md R190) -/

namespace Sys2Proof.Machine

/-- After reset the result registers are 0, no request is outstanding and both buffers are empty. -/
theorem State.resetWith_inv {p : Params} (hp : p.ok = true) : (State.resetWith p).Inv where
  config := hp
  results := Results.only_ok p .ok
  request _ hq := by cases hq
  input := Mem.nil_fits p.nMax
  output := Mem.nil_fits p.outCap
  committed a ha := absurd ha (Nat.not_lt_zero a)

/-- Settles O51: the listings' configuration is a legal one. -/
theorem invariantAtReset : Obligations.InvariantAtReset :=
  ⟨fun _ hp => State.resetWith_inv hp, State.resetWith_inv (p := Params.listing) (by decide)⟩

end Sys2Proof.Machine
end
